-- ==== Sys2Proof/Word.lean ====
section
/-! DEFINITION. The word types of the core: 10_state.md R21-R30, 30_encoding.md R71. -/

namespace Sys2Proof

/-- An 8-bit register, immediate or memory byte (10_state.md R21, 20_memory.md R50). -/
abbrev Byte := BitVec 8

/-- A 16-bit register, stack entry or instruction word (10_state.md R25, R26, R28; 30_encoding.md R70). -/
abbrev Word := BitVec 16

/-- The 12-bit address field NNN (30_encoding.md R71). -/
abbrev Addr12 := BitVec 12

/-- The 4-bit field N, the height of a sprite (30_encoding.md R71). -/
abbrev Nibble := BitVec 4

/-- The index of a general register V0-VF; "always a 4-bit decoded field" (30_encoding.md R73). -/
abbrev Reg := Fin 16

/-- A 4-bit key value, already mapped (45_timers_keys.md R217). -/
abbrev Key := BitVec 4

end Sys2Proof
end

