-- ==== Sys2Proof/Syntax.lean ====
section
/-! DEFINITION. The 34 instructions (30_encoding.md R84), their formats (R72) and their written form (R83). -/

namespace Sys2Proof

/-- The instructions, one constructor per row of 30_encoding.md R84, in its order. Operands carry the widths of
R71, so an operand out of range cannot be written (R73). -/
inductive Instr where
  | cls
  | ret
  | jp (nnn : Addr12)
  | call (nnn : Addr12)
  | seByte (x : Reg) (nn : Byte)
  | sneByte (x : Reg) (nn : Byte)
  | seReg (x y : Reg)
  | ldByte (x : Reg) (nn : Byte)
  | addByte (x : Reg) (nn : Byte)
  | ldReg (x y : Reg)
  | orReg (x y : Reg)
  | andReg (x y : Reg)
  | xorReg (x y : Reg)
  | addReg (x y : Reg)
  | sub (x y : Reg)
  /-- `y` is decoded and kept but never read (42_alu.md R148). -/
  | shr (x y : Reg)
  | subn (x y : Reg)
  /-- `y` is decoded and kept but never read (42_alu.md R150). -/
  | shl (x y : Reg)
  | sneReg (x y : Reg)
  | ldI (nnn : Addr12)
  | jpV0 (nnn : Addr12)
  | rnd (x : Reg) (nn : Byte)
  | drw (x y : Reg) (n : Nibble)
  | skp (x : Reg)
  | sknp (x : Reg)
  | ldFromDT (x : Reg)
  | ldKey (x : Reg)
  | ldToDT (x : Reg)
  | ldToST (x : Reg)
  | addI (x : Reg)
  | ldF (x : Reg)
  | ldB (x : Reg)
  | storeRegs (x : Reg)
  | loadRegs (x : Reg)
  deriving DecidableEq, Repr

/-- The six formats (30_encoding.md R72). -/
inductive Format where
  | none | a | xnn | xy | xyn | x
  deriving DecidableEq, Repr

/-- The format column of 30_encoding.md R84. -/
def Instr.format : Instr → Format
  | .cls | .ret => .none
  | .jp _ | .call _ | .ldI _ | .jpV0 _ => .a
  | .seByte _ _ | .sneByte _ _ | .ldByte _ _ | .addByte _ _ | .rnd _ _ => .xnn
  | .seReg _ _ | .ldReg _ _ | .orReg _ _ | .andReg _ _ | .xorReg _ _ | .addReg _ _ | .sub _ _ | .shr _ _
  | .subn _ _ | .shl _ _ | .sneReg _ _ => .xy
  | .drw _ _ _ => .xyn
  | .skp _ | .sknp _ | .ldFromDT _ | .ldKey _ | .ldToDT _ | .ldToST _ | .addI _ | .ldF _ | .ldB _
  | .storeRegs _ | .loadRegs _ => .x

/-- An encoding field as a plain number, before any range check (30_encoding.md R71): a register index (X or Y), a
byte NN, an address NNN or a nibble N. -/
inductive Operand where
  | reg (n : Nat)
  | byte (n : Nat)
  | addr (n : Nat)
  | nibble (n : Nat)
  deriving DecidableEq, Repr

/-- The fields of an instruction, in the order of its format; SHR and SHL keep Y (30_encoding.md R72, R85). -/
def Instr.operands : Instr → List Operand
  | .cls | .ret => []
  | .jp a | .call a | .ldI a | .jpV0 a => [.addr a.toNat]
  | .seByte x b | .sneByte x b | .ldByte x b | .addByte x b | .rnd x b => [.reg x.val, .byte b.toNat]
  | .seReg x y | .ldReg x y | .orReg x y | .andReg x y | .xorReg x y | .addReg x y | .sub x y | .shr x y
  | .subn x y | .shl x y | .sneReg x y => [.reg x.val, .reg y.val]
  | .drw x y n => [.reg x.val, .reg y.val, .nibble n.toNat]
  | .skp x | .sknp x | .ldFromDT x | .ldKey x | .ldToDT x | .ldToST x | .addI x | .ldF x | .ldB x
  | .storeRegs x | .loadRegs x => [.reg x.val]

/-- A general register as written, V0-V9 and VA-VF (30_encoding.md R83). -/
def regName (x : Reg) : String :=
  "V" ++ String.ofList [(Nat.digitChar x.val).toUpper]

/-- A number in `digits` hexadecimal digits with the `0x` prefix, as the spec's examples write immediates: two digits
for a byte, three for an address (30_encoding.md R83, 95_test_vectors.md L3; log 16). -/
def hexName (digits n : Nat) : String :=
  "0x" ++ String.ofList ((List.range digits).reverse.map (fun k => (Nat.digitChar (n / 16 ^ k % 16)).toUpper))

/-- The written form of an instruction: the mnemonic, then its operands, destination first (30_encoding.md R83, R84).
DESIGN CHOICE (log 16): the nibble of DRW is written in decimal, 0 to 15. R83 says only "a 4-bit count (N)". -/
def Instr.assembly : Instr → String
  | .cls           => "CLS"
  | .ret           => "RET"
  | .jp a          => "JP " ++ hexName 3 a.toNat
  | .call a        => "CALL " ++ hexName 3 a.toNat
  | .seByte x b    => "SE " ++ regName x ++ ", " ++ hexName 2 b.toNat
  | .sneByte x b   => "SNE " ++ regName x ++ ", " ++ hexName 2 b.toNat
  | .seReg x y     => "SE " ++ regName x ++ ", " ++ regName y
  | .ldByte x b    => "LD " ++ regName x ++ ", " ++ hexName 2 b.toNat
  | .addByte x b   => "ADD " ++ regName x ++ ", " ++ hexName 2 b.toNat
  | .ldReg x y     => "LD " ++ regName x ++ ", " ++ regName y
  | .orReg x y     => "OR " ++ regName x ++ ", " ++ regName y
  | .andReg x y    => "AND " ++ regName x ++ ", " ++ regName y
  | .xorReg x y    => "XOR " ++ regName x ++ ", " ++ regName y
  | .addReg x y    => "ADD " ++ regName x ++ ", " ++ regName y
  | .sub x y       => "SUB " ++ regName x ++ ", " ++ regName y
  | .shr x _       => "SHR " ++ regName x
  | .subn x y      => "SUBN " ++ regName x ++ ", " ++ regName y
  | .shl x _       => "SHL " ++ regName x
  | .sneReg x y    => "SNE " ++ regName x ++ ", " ++ regName y
  | .ldI a         => "LD I, " ++ hexName 3 a.toNat
  | .jpV0 a        => "JP V0, " ++ hexName 3 a.toNat
  | .rnd x b       => "RND " ++ regName x ++ ", " ++ hexName 2 b.toNat
  | .drw x y n     => "DRW " ++ regName x ++ ", " ++ regName y ++ ", " ++ toString n.toNat
  | .skp x         => "SKP " ++ regName x
  | .sknp x        => "SKNP " ++ regName x
  | .ldFromDT x    => "LD " ++ regName x ++ ", DT"
  | .ldKey x       => "LD " ++ regName x ++ ", K"
  | .ldToDT x      => "LD DT, " ++ regName x
  | .ldToST x      => "LD ST, " ++ regName x
  | .addI x        => "ADD I, " ++ regName x
  | .ldF x         => "LD F, " ++ regName x
  | .ldB x         => "LD B, " ++ regName x
  | .storeRegs x   => "LD [I], " ++ regName x
  | .loadRegs x    => "LD " ++ regName x ++ ", [I]"

end Sys2Proof
end

