-- ==== Sys2Proof/Decode.lean ====
section
/-! DEFINITION. The decoder (30_encoding.md R71-R82) and the encoder (R85), over the same opcode map (R84). The match
values are the spec's, which marks them "from general knowledge" (93_implementation_defined.md GK1; log 11). -/

namespace Sys2Proof

/-- Byte order of an instruction word: the byte at the lower address is bits 15:8 (20_memory.md R53). -/
def wordOfBytes (hi lo : Byte) : Word :=
  BitVec.ofNat 16 (hi.toNat * 256 + lo.toNat)

/-- The byte of a word that lies at the lower address (20_memory.md R53). -/
def highByte (w : Word) : Byte := w.extractLsb' 8 8

/-- The byte of a word that lies at the higher address (20_memory.md R53). -/
def lowByte (w : Word) : Byte := w.extractLsb' 0 8

/-- X = w[11:8] (30_encoding.md R71). -/
def fieldX (w : Word) : Reg := (w.extractLsb' 8 4).toFin
/-- Y = w[7:4] (30_encoding.md R71). -/
def fieldY (w : Word) : Reg := (w.extractLsb' 4 4).toFin
/-- N = w[3:0] (30_encoding.md R71). -/
def fieldN (w : Word) : Nibble := w.extractLsb' 0 4
/-- NN = w[7:0] (30_encoding.md R71). -/
def fieldNN (w : Word) : Byte := w.extractLsb' 0 8
/-- NNN = w[11:0] (30_encoding.md R71). -/
def fieldNNN (w : Word) : Addr12 := w.extractLsb' 0 12

/-- A dispatch table: match values, each with the instruction it selects and the fields that instruction decodes. -/
abbrev DispatchTable := List (Word × (Word → Instr))

/-- Table T1, exact match (30_encoding.md R76). -/
def tableT1 : DispatchTable :=
  [ (0x00E0, fun _ => .cls),
    (0x00EE, fun _ => .ret) ]

/-- Table T2, mask 0xF000 (30_encoding.md R77). -/
def tableT2 : DispatchTable :=
  [ (0x1000, fun w => .jp (fieldNNN w)),
    (0x2000, fun w => .call (fieldNNN w)),
    (0x3000, fun w => .seByte (fieldX w) (fieldNN w)),
    (0x4000, fun w => .sneByte (fieldX w) (fieldNN w)),
    (0x6000, fun w => .ldByte (fieldX w) (fieldNN w)),
    (0x7000, fun w => .addByte (fieldX w) (fieldNN w)),
    (0xA000, fun w => .ldI (fieldNNN w)),
    (0xB000, fun w => .jpV0 (fieldNNN w)),
    (0xC000, fun w => .rnd (fieldX w) (fieldNN w)),
    (0xD000, fun w => .drw (fieldX w) (fieldY w) (fieldN w)) ]

/-- Table T3, mask 0xF00F (30_encoding.md R78). -/
def tableT3 : DispatchTable :=
  [ (0x5000, fun w => .seReg (fieldX w) (fieldY w)),
    (0x8000, fun w => .ldReg (fieldX w) (fieldY w)),
    (0x8001, fun w => .orReg (fieldX w) (fieldY w)),
    (0x8002, fun w => .andReg (fieldX w) (fieldY w)),
    (0x8003, fun w => .xorReg (fieldX w) (fieldY w)),
    (0x8004, fun w => .addReg (fieldX w) (fieldY w)),
    (0x8005, fun w => .sub (fieldX w) (fieldY w)),
    (0x8006, fun w => .shr (fieldX w) (fieldY w)),
    (0x8007, fun w => .subn (fieldX w) (fieldY w)),
    (0x800E, fun w => .shl (fieldX w) (fieldY w)),
    (0x9000, fun w => .sneReg (fieldX w) (fieldY w)) ]

/-- Table T4, mask 0xF0FF (30_encoding.md R79). -/
def tableT4 : DispatchTable :=
  [ (0xE09E, fun w => .skp (fieldX w)),
    (0xE0A1, fun w => .sknp (fieldX w)),
    (0xF007, fun w => .ldFromDT (fieldX w)),
    (0xF00A, fun w => .ldKey (fieldX w)),
    (0xF015, fun w => .ldToDT (fieldX w)),
    (0xF018, fun w => .ldToST (fieldX w)),
    (0xF01E, fun w => .addI (fieldX w)),
    (0xF029, fun w => .ldF (fieldX w)),
    (0xF033, fun w => .ldB (fieldX w)),
    (0xF055, fun w => .storeRegs (fieldX w)),
    (0xF065, fun w => .loadRegs (fieldX w)) ]

/-- The four tables with their masks, in dispatch order (30_encoding.md R75). -/
def dispatchTables : List (Word × DispatchTable) :=
  [(0xFFFF, tableT1), (0xF000, tableT2), (0xF00F, tableT3), (0xF0FF, tableT4)]

/-- Looks `w & mask` up among the match values of one table (30_encoding.md R75). -/
def lookupTable (w mask : Word) : DispatchTable → Option Instr
  | [] => none
  | (value, build) :: rest => if w &&& mask = value then some (build w) else lookupTable w mask rest

/-- The first table that hits selects the instruction (30_encoding.md R75). -/
def lookupTables (w : Word) : List (Word × DispatchTable) → Option Instr
  | [] => none
  | (mask, table) :: rest =>
    match lookupTable w mask table with
    | some i => some i
    | none   => lookupTables w rest

/-- What a word decodes to: one of the 34 instructions, or UNRECOGNIZED (30_encoding.md R74). -/
inductive Decoded where
  | instr (i : Instr)
  | unrecognized (w : Word)
  deriving DecidableEq, Repr

/-- The decoder: total and stateless (30_encoding.md R74, R75). -/
def decodeWord (w : Word) : Decoded :=
  match lookupTables w dispatchTables with
  | some i => .instr i
  | none   => .unrecognized w

/-- Why a list of bytes gives no instruction. -/
inductive DecodeError where
  /-- The word "matches no dispatch table" (30_encoding.md R81); the core runs it as a no-op. -/
  | unrecognized (w : Word)
  /-- Fewer than the two bytes of a word (30_encoding.md R70); a fetch always has two. -/
  | truncated
  deriving DecidableEq, Repr

/-- Decodes the first word of a list of bytes and returns the rest. -/
def decodeBytes : List Byte → Except DecodeError (Instr × List Byte)
  | hi :: lo :: rest =>
    match decodeWord (wordOfBytes hi lo) with
    | .instr i        => .ok (i, rest)
    | .unrecognized w => .error (.unrecognized w)
  | _ => .error .truncated

/-- `match | NNN`, format A (30_encoding.md R85). -/
def packA (value : Word) (a : Addr12) : Word :=
  value ||| a.setWidth 16

/-- The register index as a field at bits 11:8 (30_encoding.md R85). -/
def packX (value : Word) (x : Reg) : Word :=
  value ||| (BitVec.ofNat 16 x.val <<< 8)

/-- `match | (X << 8) | NN`, format XNN (30_encoding.md R85). -/
def packXNN (value : Word) (x : Reg) (b : Byte) : Word :=
  packX value x ||| b.setWidth 16

/-- `match | (X << 8) | (Y << 4) | N`, formats XY (N = 0) and XYN (30_encoding.md R85). -/
def packXYN (value : Word) (x y : Reg) (n : Nibble) : Word :=
  packX value x ||| (BitVec.ofNat 16 y.val <<< 4) ||| n.setWidth 16

/-- The encoder (30_encoding.md R84, R85). -/
def encode : Instr → Word
  | .cls         => 0x00E0
  | .ret         => 0x00EE
  | .jp a        => packA 0x1000 a
  | .call a      => packA 0x2000 a
  | .seByte x b  => packXNN 0x3000 x b
  | .sneByte x b => packXNN 0x4000 x b
  | .seReg x y   => packXYN 0x5000 x y 0
  | .ldByte x b  => packXNN 0x6000 x b
  | .addByte x b => packXNN 0x7000 x b
  | .ldReg x y   => packXYN 0x8000 x y 0
  | .orReg x y   => packXYN 0x8001 x y 0
  | .andReg x y  => packXYN 0x8002 x y 0
  | .xorReg x y  => packXYN 0x8003 x y 0
  | .addReg x y  => packXYN 0x8004 x y 0
  | .sub x y     => packXYN 0x8005 x y 0
  | .shr x y     => packXYN 0x8006 x y 0
  | .subn x y    => packXYN 0x8007 x y 0
  | .shl x y     => packXYN 0x800E x y 0
  | .sneReg x y  => packXYN 0x9000 x y 0
  | .ldI a       => packA 0xA000 a
  | .jpV0 a      => packA 0xB000 a
  | .rnd x b     => packXNN 0xC000 x b
  | .drw x y n   => packXYN 0xD000 x y n
  | .skp x       => packX 0xE09E x
  | .sknp x      => packX 0xE0A1 x
  | .ldFromDT x  => packX 0xF007 x
  | .ldKey x     => packX 0xF00A x
  | .ldToDT x    => packX 0xF015 x
  | .ldToST x    => packX 0xF018 x
  | .addI x      => packX 0xF01E x
  | .ldF x       => packX 0xF029 x
  | .ldB x       => packX 0xF033 x
  | .storeRegs x => packX 0xF055 x
  | .loadRegs x  => packX 0xF065 x

/-- The bytes of an instruction as memory holds them, lower address first (20_memory.md R53). -/
def encodeBytes (i : Instr) : List Byte :=
  [highByte (encode i), lowByte (encode i)]

/-- The 16 bits the opcode table's numbering gives an instruction of `nbits` bits; the bits above are 0. -/
def tableWord (nbits w : Nat) : Word :=
  BitVec.ofNat 16 (w % 2 ^ min nbits 16)

/-- The instruction the decoder reads from the word `w` of the opcode table, laid out as memory holds it. -/
def decodeTableWord (nbits w : Nat) : Option Instr :=
  match decodeBytes [highByte (tableWord nbits w), lowByte (tableWord nbits w)] with
  | .ok (i, _) => some i
  | .error _   => none

end Sys2Proof
end

