-- ==== Sys2Proof/Config.lean ====
section
/-! DEFINITION. What this hardware fixes (00_scope.md R7), its OPEN parameters, and the free values of its environment. -/

namespace Sys2Proof.Config

/-- `MEM_SIZE` (00_scope.md R7). -/
def memSize : Nat := 4096
/-- `STACK_DEPTH` (00_scope.md R7). -/
def stackDepth : Nat := 16
/-- `DISP_W` (00_scope.md R7). -/
def dispWidth : Nat := 64
/-- `DISP_H` (00_scope.md R7). -/
def dispHeight : Nat := 32
/-- `FONT_BASE` (00_scope.md R7). -/
def fontBase : Nat := 0
/-- `GLYPH_BYTES` (00_scope.md R7). -/
def glyphBytes : Nat := 5
/-- `FONT_GLYPHS` (00_scope.md R7). -/
def fontGlyphs : Nat := 16
/-- `PROG_BASE` (00_scope.md R7). -/
def progBase : Nat := 0x200
/-- `PC_RESET` (00_scope.md R7). -/
def pcReset : Word := 0x200
/-- `SP_RESET` (00_scope.md R7). -/
def spReset : Byte := 0

/-- What the environment does around one cycle: the `tick_DT` and `tick_ST` actions that fall before it, and the
inputs `key_in` (NONE is `none`) and `rand_in` that it samples (40_cycle.md R100, 45_timers_keys.md R216, log 3). -/
structure CycleInput where
  ticksDT : Nat
  ticksST : Nat
  key     : Option Key
  rand    : Byte
  deriving DecidableEq, Repr, Inhabited

/-- FREE VALUE (log 3). What the environment does around the `n`-th step where `State.inputs` names nothing: any
key, any random byte (92_eei_decisions.md D20), any number of ticks (D13). It has no body: nothing can be proved of it. -/
opaque freeInput : Nat → CycleInput

/-- The OPEN reset parameters `reset_V`, `reset_I`, `reset_DT`, `reset_ST` (92_eei_decisions.md D14) and the contents of
the call stack, which "can hold any value" (70_reset_and_hazards.md R260). -/
structure ResetParams where
  V     : Vector Byte 16
  I     : Word
  DT    : Byte
  ST    : Byte
  stack : Vector Word 16
  deriving DecidableEq, Repr

/-- DESIGN CHOICE (logs 1 and 2, unsafe): the parameters `State.reset` takes, all zero; the spec gives no value. -/
def resetParams : ResetParams where
  V     := Vector.replicate 16 0
  I     := 0
  DT    := 0
  ST    := 0
  stack := Vector.replicate 16 0

/-- PRESUMED (log 7): the default of the OPEN parameter `font`, from 93_implementation_defined.md GK2, "from general
knowledge, not in source". No rule of the core depends on these bytes. -/
def defaultFont : List Byte :=
  [0xF0, 0x90, 0x90, 0x90, 0xF0] ++ [0x20, 0x60, 0x20, 0x20, 0x70] ++
  [0xF0, 0x10, 0xF0, 0x80, 0xF0] ++ [0xF0, 0x10, 0xF0, 0x10, 0xF0] ++
  [0x90, 0x90, 0xF0, 0x10, 0x10] ++ [0xF0, 0x80, 0xF0, 0x10, 0xF0] ++
  [0xF0, 0x80, 0xF0, 0x90, 0xF0] ++ [0xF0, 0x10, 0x20, 0x40, 0x40] ++
  [0xF0, 0x90, 0xF0, 0x90, 0xF0] ++ [0xF0, 0x90, 0xF0, 0x10, 0xF0] ++
  [0xF0, 0x90, 0xF0, 0x90, 0x90] ++ [0xE0, 0x90, 0xE0, 0x90, 0xE0] ++
  [0xF0, 0x80, 0x80, 0x80, 0xF0] ++ [0xE0, 0x90, 0x90, 0x90, 0xE0] ++
  [0xF0, 0x80, 0xF0, 0x80, 0xF0] ++ [0xF0, 0x80, 0xF0, 0x80, 0x80]

end Sys2Proof.Config
end

