-- ==== Sys2Proof/Machine/State.lean ====
section
/-! DEFINITION. The state of the core (10_state.md R20), its interface held as plain data (40_cycle.md R100), the
reasons a step can stop, and reset (70_reset_and_hazards.md R260). -/

namespace Sys2Proof.Machine

/-- Why the core halted (10_state.md R31, 60_exceptions.md R231). -/
inductive HaltCause where
  | stackOverflow
  | stackUnderflow
  deriving DecidableEq, Repr

/-- The execution mode (10_state.md R31). -/
inductive Mode where
  | running
  /-- `x` is the destination register, captured "when the wait began". -/
  | waitingForKey (x : Reg)
  /-- `addr` is the address of the instruction word that halted (60_exceptions.md R231). -/
  | halted (cause : HaltCause) (addr : Word)
  deriving DecidableEq, Repr

/-- Memory as the cells whose byte is not the one an unlisted address reads as, by rising address (10_state.md R33). -/
abbrev Memory := List Host.Cell

/-- The display buffer, row-major: row y holds the pixels (0, y) to (63, y) (10_state.md R32). -/
abbrev Display := Vector (Vector Bool 64) 32

/-- The state. The first ten fields are the architectural state of 10_state.md R20; the rest is the block's interface
(40_cycle.md R100), which the spec does not count as state, and the model's own record of the environment (log 3). -/
structure State where
  /-- V0-VF (10_state.md R21). -/
  V     : Vector Byte 16
  /-- The index register (10_state.md R26). -/
  I     : Word
  /-- The program counter, stored unreduced (10_state.md R25). -/
  pc    : Word
  /-- The number of occupied stack entries, legal values 0..16 (10_state.md R27). -/
  SP    : Byte
  /-- The call stack (10_state.md R28). -/
  stack : Vector Word 16
  /-- The delay timer (10_state.md R29). -/
  DT    : Byte
  /-- The sound timer (10_state.md R30). -/
  ST    : Byte
  /-- The 4096 bytes of memory (10_state.md R33). -/
  mem   : Memory
  /-- The display buffer (10_state.md R32). -/
  disp  : Display
  /-- The execution mode (10_state.md R31). -/
  mode  : Mode
  /-- `key_in` as the current cycle samples it; NONE is `none` (40_cycle.md R100). -/
  keyIn : Option Key
  /-- `rand_in` as the current cycle samples it (40_cycle.md R100). -/
  randIn : Byte
  /-- `diag_unrecognized` of the cycle just completed (40_cycle.md R100, R104). -/
  diagUnrecognized : Bool
  /-- The model's own: what the environment does around the coming cycles, oldest first (log 3). -/
  inputs  : List Config.CycleInput
  /-- The model's own: steps taken, the argument of `Config.freeInput` (log 3). -/
  cycleNo : Nat
  deriving DecidableEq, Repr

/-- Why a step can fault. The spec's own errors are no faults of a step: they are next states whose mode is HALTED
(60_exceptions.md R232, log 9). -/
inductive Fault where
  /-- Raised by CALL with SP above 16 and by RET with SP above 16: the stack has no such entry and the spec gives such
  an SP no meaning (10_state.md R27, R28). DEDUCED, safe: no state that meets `State.Inv` raises it (log 8). -/
  | stackEntryAbsent
  deriving DecidableEq, Repr

/-- Why a step can be refused. -/
inductive Refusal where
  /-- Raised by `exec` alone, for an instruction without a meaning in this model; safe. No arm raises it now. -/
  | notModelled (mnemonic : String)
  deriving DecidableEq, Repr

/-- A display with every pixel off. -/
def Display.off : Display := Vector.replicate 32 (Vector.replicate 64 false)

/-- The reset state for given OPEN parameters (70_reset_and_hazards.md R260). Memory lists nothing: every byte is 0
before the loader runs. The interface fields are DESIGN CHOICE (logs 3, 5, 6). -/
def State.resetWith (p : Config.ResetParams) : State where
  V     := p.V
  I     := p.I
  pc    := Config.pcReset
  SP    := Config.spReset
  stack := p.stack
  DT    := p.DT
  ST    := p.ST
  mem   := []
  disp  := Display.off
  mode  := .running
  keyIn := none
  randIn := 0
  diagUnrecognized := false
  inputs  := []
  cycleNo := 0

/-- The machine right after reset, its OPEN parameters all zero (DESIGN CHOICE, logs 1 and 2). -/
def State.reset : State := State.resetWith Config.resetParams

end Sys2Proof.Machine
end

