-- ==== Sys2Proof/Machine/Ops.lean ====
section
/-! DEFINITION. The named operations over memory, registers, stack, mode and environment that the meanings share. -/

namespace Sys2Proof.Machine

/-- What an address that is not listed reads as: the spec's reset content of memory (10_state.md R33). -/
def Memory.unlisted : Byte := 0

/-- The byte at an address below 4096. -/
def Memory.read : Memory → Nat → Byte
  | [], _ => Memory.unlisted
  | (k, b) :: rest, a => if k = a then b else Memory.read rest a

/-- Writes the byte at an address below 4096 and keeps the canonical form: writing what an unlisted address reads as
removes the entry. -/
def Memory.write : Memory → Nat → Byte → Memory
  | [], a, v => if v = Memory.unlisted then [] else [(a, v)]
  | (k, b) :: rest, a, v =>
    if a < k then (if v = Memory.unlisted then (k, b) :: rest else (a, v) :: (k, b) :: rest)
    else if a = k then (if v = Memory.unlisted then rest else (a, v) :: rest)
    else (k, b) :: Memory.write rest a v

/-- The canonical form from address `low` on: addresses strictly rising, below 4096, no unlisted byte listed. -/
def Memory.wfFrom (low : Nat) : Memory → Bool
  | [] => true
  | (k, b) :: rest =>
    decide (low ≤ k) && decide (k < Config.memSize) && (b != Memory.unlisted) && Memory.wfFrom (k + 1) rest

/-- The canonical form of memory. -/
def Memory.wf (m : Memory) : Bool := Memory.wfFrom 0 m

/-- `MemRead(addr, 1)`: the byte at `addr mod 4096` (20_memory.md R51, R52; log 15). -/
def State.memRead (s : State) (addr : Nat) : Byte :=
  Memory.read s.mem (addr % Config.memSize)

/-- `MemWrite(addr, 1, v)`: writes the byte at `addr mod 4096` (20_memory.md R51, R52). -/
def State.memWrite (s : State) (addr : Nat) (v : Byte) : State :=
  { s with mem := Memory.write s.mem (addr % Config.memSize) v }

/-- The bytes at `addr`, `addr + 1`, ..., in that order (20_memory.md R56). -/
def State.memReadList (s : State) (addr : Nat) : Nat → List Byte
  | 0 => []
  | n + 1 => s.memRead addr :: State.memReadList s (addr + 1) n

/-- Writes the bytes at `addr`, `addr + 1`, ..., in that order (20_memory.md R56, R60). -/
def State.memWriteList (s : State) (addr : Nat) : List Byte → State
  | [] => s
  | v :: rest => State.memWriteList (s.memWrite addr v) (addr + 1) rest

/-- The instruction word at an address: two byte reads, big-endian, each address reduced (20_memory.md R53). -/
def State.wordAt (s : State) (addr : Word) : Word :=
  wordOfBytes (s.memRead addr.toNat) (s.memRead (addr.toNat + 1))

/-- The word the next fetch reads (40_cycle.md R103). -/
def State.fetchWord (s : State) : Word := s.wordAt s.pc

/-- `V[i]` (00_scope.md R10). -/
def State.getV (s : State) (i : Reg) : Byte := s.V[i]

/-- `V[i] <- v` (00_scope.md R10). -/
def State.setV (s : State) (i : Reg) (v : Byte) : State := { s with V := s.V.set i v }

/-- The index of VF, the flag register (10_state.md R23). -/
def regVF : Reg := 15

/-- `I <- v`. -/
def State.setI (s : State) (v : Word) : State := { s with I := v }

/-- `pc <- v`; pc is stored unreduced (10_state.md R25). -/
def State.setPc (s : State) (v : Word) : State := { s with pc := v }

/-- `DT <- v`. -/
def State.setDT (s : State) (v : Byte) : State := { s with DT := v }

/-- `ST <- v`. -/
def State.setST (s : State) (v : Byte) : State := { s with ST := v }

/-- `mode <- m`. -/
def State.setMode (s : State) (m : Mode) : State := { s with mode := m }

/-- Replaces the display buffer. -/
def State.setDisp (s : State) (d : Display) : State := { s with disp := d }

/-- Sets the diagnostic output (40_cycle.md R104). -/
def State.setDiag (s : State) (b : Bool) : State := { s with diagUnrecognized := b }

/-- The advance of a fetch: `pc <- (pc + 2) mod 65536` (40_cycle.md R103). -/
def State.advancePc (s : State) : State := s.setPc (s.pc + 2)

/-- A skip: `if c then pc <- (pc + 2) mod 65536` (41_control_flow.md R123). -/
def State.skipIf (s : State) (c : Bool) : State := s.setPc (if c then s.pc + 2 else s.pc)

/-- Writes VF and then V[x]: with x = F the result is what stays (40_cycle.md R108, log 12). -/
def State.setFlagThenV (s : State) (x : Reg) (flag result : Byte) : State :=
  (s.setV regVF flag).setV x result

/-- `V[i]` for i in 0..x, the registers LD [I],Vx stores and LD Vx,[I] loads (43_index_memory.md R174, R175). -/
def regsUpTo (x : Reg) : List Reg := (List.finRange 16).filter (fun i => decide (i ≤ x))

/-- `for i in 0..x: MemWrite(I + i, 1, V[i])` (43_index_memory.md R174). -/
def State.storeRegsAt (s : State) (x : Reg) : State :=
  (regsUpTo x).foldl (fun t i => t.memWrite (t.I.toNat + i.val) (t.getV i)) s

/-- `for i in 0..x: V[i] <- MemRead(I + i, 1)` (43_index_memory.md R175). -/
def State.loadRegsAt (s : State) (x : Reg) : State :=
  (regsUpTo x).foldl (fun t i => t.setV i (t.memRead (t.I.toNat + i.val))) s

/-- The numeric code of a halt cause (60_exceptions.md R231). -/
def HaltCause.code : HaltCause → Nat
  | .stackOverflow => 1
  | .stackUnderflow => 2

/-- `raise Halt(cause)`: `mode <- HALTED(cause, (pc - 2) mod 65536)` and nothing else (60_exceptions.md R232). There is
no return from a halt beside it: "Nothing returns from a halt" (R233). -/
def State.raiseHalt (s : State) (cause : HaltCause) : State :=
  s.setMode (.halted cause (s.pc - 2))

/-- CALL's push: `stack[SP] <- pc; SP <- SP + 1`, for an entry that exists (41_control_flow.md R122). -/
def State.pushPc (s : State) (h : s.SP.toNat < 16) : State :=
  { s with stack := s.stack.set s.SP.toNat s.pc, SP := s.SP + 1 }

/-- RET's pop: `SP <- SP - 1; pc <- stack[SP]`, for an entry that exists (41_control_flow.md R121). The entry keeps
its value. -/
def State.popPc (s : State) (h : (s.SP - 1).toNat < 16) : State :=
  { s with SP := s.SP - 1, pc := s.stack[(s.SP - 1).toNat] }

/-- One environment tick of a timer: `if T > 0 then T <- T - 1` (45_timers_keys.md R216; saturation GK4, log 14). -/
def tick (t : Byte) : Byte := if t = 0 then t else t - 1

/-- `n` ticks of a timer. -/
def ticks : Nat → Byte → Byte
  | 0, t => t
  | n + 1, t => ticks n (tick t)

/-- `tick_DT` (45_timers_keys.md R216). -/
def State.tickDT (s : State) : State := s.setDT (tick s.DT)

/-- `tick_ST` (45_timers_keys.md R216). -/
def State.tickST (s : State) : State := s.setST (tick s.ST)

/-- What the environment does around the coming cycle: the next scheduled input, or the free value (log 3). -/
def State.nextInput (s : State) : Config.CycleInput :=
  match s.inputs with
  | a :: _ => a
  | [] => Config.freeInput s.cycleNo

/-- The environment's part of a step, before the cycle: the ticks that precede it and the sampling of `key_in` and
`rand_in` (40_cycle.md R100, R107; 45_timers_keys.md R216). The input is used up. -/
def State.sampleInput (s : State) : State :=
  { s with
    DT := ticks s.nextInput.ticksDT s.DT
    ST := ticks s.nextInput.ticksST s.ST
    keyIn := s.nextInput.key
    randIn := s.nextInput.rand
    inputs := s.inputs.tail
    cycleNo := s.cycleNo + 1 }

/-- A waiting cycle's poll: with a key, `V[x] <- k; mode <- RUNNING`; without one, nothing (40_cycle.md R106). -/
def State.pollKey (s : State) (x : Reg) : State :=
  match s.keyIn with
  | none => s
  | some k => (s.setV x (k.setWidth 8)).setMode .running

end Sys2Proof.Machine
end

