-- ==== Sys2Proof/Machine/Flags.lean ====
section
/-! DEFINITION. The arithmetic results and the flags VF receives, computed exactly and then reduced (42_alu.md R139). -/

namespace Sys2Proof.Machine

/-- A flag as the byte VF receives, 0 or 1. -/
def flagByte (b : Bool) : Byte := if b then 1 else 0

/-- `s mod 256` with `s = a + b` (42_alu.md R141, R146). -/
def sumResult (a b : Byte) : Byte := BitVec.ofNat 8 (a.toNat + b.toNat)

/-- The carry out of bit 7: 1 exactly when a + b > 255 (42_alu.md R146). -/
def sumCarry (a b : Byte) : Byte := flagByte (decide (a.toNat + b.toNat > 255))

/-- `r = a + (~b & 0xFF) + 1`, the 9-bit sum of the two's-complement subtraction (42_alu.md R147). -/
def differenceSum (a b : Byte) : Nat := a.toNat + (~~~b).toNat + 1

/-- `r[7:0]` (42_alu.md R147). -/
def differenceResult (a b : Byte) : Byte := BitVec.ofNat 8 (differenceSum a b)

/-- `r[8]`, the NOT-borrow (42_alu.md R147; 90_conflicts.md C4 settles the equal operands, log 12). -/
def differenceNotBorrow (a b : Byte) : Byte := flagByte ((differenceSum a b).testBit 8)

/-- `a >> 1` (42_alu.md R148). -/
def shiftRightResult (a : Byte) : Byte := a >>> 1

/-- `a[0]`, the bit shifted out to the right (42_alu.md R148). -/
def shiftRightOut (a : Byte) : Byte := flagByte (a.getLsbD 0)

/-- `(a << 1) mod 256` (42_alu.md R150). -/
def shiftLeftResult (a : Byte) : Byte := a <<< 1

/-- `a[7]`, the bit shifted out to the left (42_alu.md R150). -/
def shiftLeftOut (a : Byte) : Byte := flagByte (a.getLsbD 7)

end Sys2Proof.Machine
end

