-- ==== Sys2Proof/Machine/Operands.lean ====
section
/-! DEFINITION. Operand forms: how the fields of a word and the cycle's inputs become values (30_encoding.md R73). -/

namespace Sys2Proof.Machine

/-- `zext_16(NNN)`, the address operand as pc or I takes it (30_encoding.md R73). -/
def addrOperand (nnn : Addr12) : Word := nnn.setWidth 16

/-- `zext_16(V[0]) + zext_16(NNN)`, the target of JP V0 (41_control_flow.md R127). -/
def offsetTarget (s : State) (nnn : Addr12) : Word :=
  (s.getV 0).setWidth 16 + addrOperand nnn

/-- `FONT_BASE + (V[x] & 0xF) * 5`, the glyph address of LD F (43_index_memory.md R172). -/
def glyphAddress (v : Byte) : Word :=
  BitVec.ofNat 16 (Config.fontBase + (v &&& 0xF).toNat * Config.glyphBytes)

/-- The three digits LD B stores: v div 100, (v div 10) mod 10, v mod 10 (43_index_memory.md R173). -/
def bcdDigits (v : Byte) : List Byte :=
  [BitVec.ofNat 8 (v.toNat / 100), BitVec.ofNat 8 (v.toNat / 10 % 10), BitVec.ofNat 8 (v.toNat % 10)]

/-- `key_in = KEY(k) and V[X] = zext_8(k)`: the full 8 bits are compared (45_timers_keys.md R210). -/
def keyMatches (keyIn : Option Key) (v : Byte) : Bool :=
  match keyIn with
  | none => false
  | some k => decide (v = k.setWidth 8)

/-- The rows of a sprite: `[MemRead(I + r, 1) for r in 0..N-1]` (44_display.md R196). -/
def spriteRows (s : State) (n : Nibble) : List Byte :=
  s.memReadList s.I.toNat n.toNat

end Sys2Proof.Machine
end

