-- ==== Sys2Proof/Machine/Alu.lean ====
section
/-! DEFINITION. Register loads and the ALU (42_alu.md R140-R151). Operands are read before anything is written; VF is
written first and V[X] second (40_cycle.md R108). -/

namespace Sys2Proof.Machine

/-- LD Vx, byte: `V[X] <- NN` (42_alu.md R140). -/
def execLdByte (x : Reg) (nn : Byte) (s : State) : Host.Outcome State Fault Refusal :=
  .next (s.setV x nn)

/-- ADD Vx, byte: `V[X] <- (V[X] + NN) mod 256`, no flag (42_alu.md R141). -/
def execAddByte (x : Reg) (nn : Byte) (s : State) : Host.Outcome State Fault Refusal :=
  .next (s.setV x (sumResult (s.getV x) nn))

/-- LD Vx, Vy: `V[X] <- V[Y]` (42_alu.md R142). -/
def execLdReg (x y : Reg) (s : State) : Host.Outcome State Fault Refusal :=
  .next (s.setV x (s.getV y))

/-- OR Vx, Vy: `V[X] <- V[X] | V[Y]`, no flag (42_alu.md R143). -/
def execOrReg (x y : Reg) (s : State) : Host.Outcome State Fault Refusal :=
  .next (s.setV x (s.getV x ||| s.getV y))

/-- AND Vx, Vy: `V[X] <- V[X] & V[Y]`, no flag (42_alu.md R144). -/
def execAndReg (x y : Reg) (s : State) : Host.Outcome State Fault Refusal :=
  .next (s.setV x (s.getV x &&& s.getV y))

/-- XOR Vx, Vy: `V[X] <- V[X] ^ V[Y]`, no flag (42_alu.md R145). -/
def execXorReg (x y : Reg) (s : State) : Host.Outcome State Fault Refusal :=
  .next (s.setV x (s.getV x ^^^ s.getV y))

/-- ADD Vx, Vy: VF is the carry, V[X] the sum mod 256 (42_alu.md R146). -/
def execAddReg (x y : Reg) (s : State) : Host.Outcome State Fault Refusal :=
  .next (s.setFlagThenV x (sumCarry (s.getV x) (s.getV y)) (sumResult (s.getV x) (s.getV y)))

/-- SUB Vx, Vy: VF is the NOT-borrow of V[X] - V[Y], V[X] the difference mod 256 (42_alu.md R147). -/
def execSub (x y : Reg) (s : State) : Host.Outcome State Fault Refusal :=
  .next (s.setFlagThenV x (differenceNotBorrow (s.getV x) (s.getV y)) (differenceResult (s.getV x) (s.getV y)))

/-- SHR Vx: VF is bit 0 of the old V[X], V[X] its value shifted right; Y is ignored (42_alu.md R148). -/
def execShr (x _y : Reg) (s : State) : Host.Outcome State Fault Refusal :=
  .next (s.setFlagThenV x (shiftRightOut (s.getV x)) (shiftRightResult (s.getV x)))

/-- SUBN Vx, Vy: VF is the NOT-borrow of V[Y] - V[X], V[X] the difference mod 256 (42_alu.md R149). -/
def execSubn (x y : Reg) (s : State) : Host.Outcome State Fault Refusal :=
  .next (s.setFlagThenV x (differenceNotBorrow (s.getV y) (s.getV x)) (differenceResult (s.getV y) (s.getV x)))

/-- SHL Vx: VF is bit 7 of the old V[X], V[X] its value shifted left mod 256; Y is ignored (42_alu.md R150). -/
def execShl (x _y : Reg) (s : State) : Host.Outcome State Fault Refusal :=
  .next (s.setFlagThenV x (shiftLeftOut (s.getV x)) (shiftLeftResult (s.getV x)))

/-- RND Vx, byte: `V[X] <- rand_in & NN`, with the cycle's free random byte (42_alu.md R151). -/
def execRnd (x : Reg) (nn : Byte) (s : State) : Host.Outcome State Fault Refusal :=
  .next (s.setV x (s.randIn &&& nn))

end Sys2Proof.Machine
end

