-- ==== Sys2Proof/Machine/ControlFlow.lean ====
section
/-! DEFINITION. Control transfer: jumps, the call stack, skips (41_control_flow.md R120-R127). pc is already advanced. -/

namespace Sys2Proof.Machine

/-- JP addr: `pc <- zext_16(NNN)` (41_control_flow.md R120). -/
def execJp (nnn : Addr12) (s : State) : Host.Outcome State Fault Refusal :=
  .next (s.setPc (addrOperand nnn))

/-- RET: the halt with SP = 0, else `SP <- SP - 1; pc <- stack[SP]` (41_control_flow.md R121). With SP above 16 the
entry does not exist (log 8). -/
def execRet (s : State) : Host.Outcome State Fault Refusal :=
  if s.SP = 0 then .next (s.raiseHalt .stackUnderflow)
  else if h : (s.SP - 1).toNat < 16 then .next (s.popPc h)
  else .fault .stackEntryAbsent

/-- CALL addr: the halt with SP = 16, else `stack[SP] <- pc; SP <- SP + 1; pc <- zext_16(NNN)` (41_control_flow.md
R122). With SP above 16 the entry does not exist (log 8). -/
def execCall (nnn : Addr12) (s : State) : Host.Outcome State Fault Refusal :=
  if s.SP = 16 then .next (s.raiseHalt .stackOverflow)
  else if h : s.SP.toNat < 16 then .next ((s.pushPc h).setPc (addrOperand nnn))
  else .fault .stackEntryAbsent

/-- SE Vx, byte: skip if V[X] = NN (41_control_flow.md R123). -/
def execSeByte (x : Reg) (nn : Byte) (s : State) : Host.Outcome State Fault Refusal :=
  .next (s.skipIf (decide (s.getV x = nn)))

/-- SNE Vx, byte: skip if V[X] != NN (41_control_flow.md R124). -/
def execSneByte (x : Reg) (nn : Byte) (s : State) : Host.Outcome State Fault Refusal :=
  .next (s.skipIf (decide (s.getV x ≠ nn)))

/-- SE Vx, Vy: skip if V[X] = V[Y] (41_control_flow.md R125). -/
def execSeReg (x y : Reg) (s : State) : Host.Outcome State Fault Refusal :=
  .next (s.skipIf (decide (s.getV x = s.getV y)))

/-- SNE Vx, Vy: skip if V[X] != V[Y] (41_control_flow.md R126). -/
def execSneReg (x y : Reg) (s : State) : Host.Outcome State Fault Refusal :=
  .next (s.skipIf (decide (s.getV x ≠ s.getV y)))

/-- JP V0, addr: `pc <- zext_16(V[0]) + zext_16(NNN)` (41_control_flow.md R127). -/
def execJpV0 (nnn : Addr12) (s : State) : Host.Outcome State Fault Refusal :=
  .next (s.setPc (offsetTarget s nnn))

end Sys2Proof.Machine
end

