-- ==== Sys2Proof/Machine/Display.lean ====
section
/-! DEFINITION. The display buffer controller and its two instructions, CLS and DRW (44_display.md R190-R196). -/

namespace Sys2Proof.Machine

/-- `disp[x][y]` (00_scope.md R10); `false` off the buffer, where there is no pixel. -/
def Display.pixel (d : Display) (x y : Nat) : Bool :=
  if h : y < 32 ∧ x < 64 then (d[y]'h.1)[x]'h.2 else false

/-- The `disp` output as the display consumer reads it between cycles, row-major: pixel (x, y) at index y * 64 + x
(10_state.md R32, 44_display.md R194). Reading it changes nothing. -/
def Display.readOut (d : Display) : Vector Bool 2048 :=
  Vector.ofFn (fun k => d.pixel (k.val % 64) (k.val / 64))

/-- `clear()`: every pixel off (44_display.md R191). -/
def Display.clear (_d : Display) : Display := Display.off

/-- One set sprite bit at (x, y): off the buffer it is dropped; on it, the pixel is flipped, and one that was 1
collides (44_display.md R192, R193). The pair is (display, collision so far). -/
def plotPixel (x y : Nat) (acc : Display × Bool) : Display × Bool :=
  if h : y < 32 ∧ x < 64 then
    (acc.1.set y ((acc.1[y]'h.1).set x (!(acc.1[y]'h.1)[x]'h.2) h.2) h.1, acc.2 || (acc.1[y]'h.1)[x]'h.2)
  else acc

/-- One row of a sprite: bit 7 - c of the byte at column ox + c, for c in 0..7 (44_display.md R192, log 13). -/
def drawRow (ox y : Nat) (row : Byte) (acc : Display × Bool) : Display × Bool :=
  (List.range 8).foldl (fun a c => if row.getLsbD (7 - c) then plotPixel (ox + c) y a else a) acc

/-- The rows of a sprite, the first at line `y`, each next one a line lower (44_display.md R192). -/
def drawRows (ox : Nat) : Nat → List Byte → Display × Bool → Display × Bool
  | _, [], acc => acc
  | y, row :: rest, acc => drawRows ox (y + 1) rest (drawRow ox y row acc)

/-- `draw_sprite(ox, oy, rows)`: the new buffer and the collision bit (44_display.md R192). -/
def drawSprite (ox oy : Nat) (rows : List Byte) (d : Display) : Display × Bool :=
  drawRows ox oy rows (d, false)

/-- The bit of a sprite that lies over the pixel (u, v): bit 7 - c of row r with u = ox + c and v = oy + r, clear where
no row or column of the sprite lies (44_display.md R192). DRW runs the loop above; the statements about it read here. -/
def spriteBit (ox oy : Nat) (rows : List Byte) (u v : Nat) : Bool :=
  match rows[v - oy]? with
  | some row => decide (oy ≤ v ∧ ox ≤ u ∧ u < ox + 8) && row.getLsbD (7 - (u - ox))
  | none => false

/-- CLS: `clear()`; VF is unchanged (44_display.md R195). -/
def execCls (s : State) : Host.Outcome State Fault Refusal :=
  .next (s.setDisp (Display.clear s.disp))

/-- The drawing of DRW: the origin is V[X], V[Y], not wrapped; the rows are read from I on (44_display.md R196). -/
def drwResult (x y : Reg) (n : Nibble) (s : State) : Display × Bool :=
  drawSprite (s.getV x).toNat (s.getV y).toNat (spriteRows s n) s.disp

/-- DRW Vx, Vy, nibble: draws the sprite and writes the collision bit into VF (44_display.md R196). -/
def execDrw (x y : Reg) (n : Nibble) (s : State) : Host.Outcome State Fault Refusal :=
  .next ((s.setDisp (drwResult x y n s).1).setV regVF (flagByte (drwResult x y n s).2))

end Sys2Proof.Machine
end

