-- ==== Sys2Proof/Machine/IndexMemory.lean ====
section
/-! DEFINITION. The index register and memory transfer (43_index_memory.md R170-R175). No access changes I. -/

namespace Sys2Proof.Machine

/-- LD I, addr: `I <- zext_16(NNN)` (43_index_memory.md R170). -/
def execLdI (nnn : Addr12) (s : State) : Host.Outcome State Fault Refusal :=
  .next (s.setI (addrOperand nnn))

/-- ADD I, Vx: `I <- (I + V[X]) mod 65536`, no flag (43_index_memory.md R171). -/
def execAddI (x : Reg) (s : State) : Host.Outcome State Fault Refusal :=
  .next (s.setI (s.I + (s.getV x).setWidth 16))

/-- LD F, Vx: `I <- FONT_BASE + (V[X] & 0xF) * 5` (43_index_memory.md R172). -/
def execLdF (x : Reg) (s : State) : Host.Outcome State Fault Refusal :=
  .next (s.setI (glyphAddress (s.getV x)))

/-- LD B, Vx: the three decimal digits of V[X] at I, I + 1, I + 2 (43_index_memory.md R173). -/
def execLdB (x : Reg) (s : State) : Host.Outcome State Fault Refusal :=
  .next (s.memWriteList s.I.toNat (bcdDigits (s.getV x)))

/-- LD [I], Vx: stores V[0]..V[X] from I on (43_index_memory.md R174). -/
def execStoreRegs (x : Reg) (s : State) : Host.Outcome State Fault Refusal :=
  .next (s.storeRegsAt x)

/-- LD Vx, [I]: loads V[0]..V[X] from I on (43_index_memory.md R175). -/
def execLoadRegs (x : Reg) (s : State) : Host.Outcome State Fault Refusal :=
  .next (s.loadRegsAt x)

end Sys2Proof.Machine
end

