-- ==== Sys2Proof/Machine/TimersKeys.lean ====
section
/-! DEFINITION. The keypad and timer instructions (45_timers_keys.md R210-R215). -/

namespace Sys2Proof.Machine

/-- SKP Vx: skip if the key of this cycle is V[X] (45_timers_keys.md R210). -/
def execSkp (x : Reg) (s : State) : Host.Outcome State Fault Refusal :=
  .next (s.skipIf (keyMatches s.keyIn (s.getV x)))

/-- SKNP Vx: skip if it is not, no key included (45_timers_keys.md R211). -/
def execSknp (x : Reg) (s : State) : Host.Outcome State Fault Refusal :=
  .next (s.skipIf (!keyMatches s.keyIn (s.getV x)))

/-- LD Vx, DT: `V[X] <- DT` (45_timers_keys.md R212). -/
def execLdFromDT (x : Reg) (s : State) : Host.Outcome State Fault Refusal :=
  .next (s.setV x s.DT)

/-- LD Vx, K: `mode <- WAITING_FOR_KEY(X)`; the key of this cycle is not examined (45_timers_keys.md R213,
log 14). -/
def execLdKey (x : Reg) (s : State) : Host.Outcome State Fault Refusal :=
  .next (s.setMode (.waitingForKey x))

/-- LD DT, Vx: `DT <- V[X]` (45_timers_keys.md R214). -/
def execLdToDT (x : Reg) (s : State) : Host.Outcome State Fault Refusal :=
  .next (s.setDT (s.getV x))

/-- LD ST, Vx: `ST <- V[X]` (45_timers_keys.md R215). -/
def execLdToST (x : Reg) (s : State) : Host.Outcome State Fault Refusal :=
  .next (s.setST (s.getV x))

end Sys2Proof.Machine
end

