-- ==== Sys2Proof/Machine/Cycle.lean ====
section
/-! DEFINITION. The cycle (40_cycle.md R101-R109, listing L1) and the loader (70_reset_and_hazards.md R263). -/

namespace Sys2Proof.Machine

/-- A RUNNING cycle: fetch, advance, decode, and perform the one instruction or nothing (40_cycle.md R103, R104). -/
def runCycle (s : State) : Host.Outcome State Fault Refusal :=
  match decodeWord s.fetchWord with
  | .instr i        => exec i s.advancePc
  | .unrecognized _ => .next (s.advancePc.setDiag true)

/-- Listing L1 (40_cycle.md R109): the diagnostic is cleared, then the mode decides. -/
def cycle (s : State) : Host.Outcome State Fault Refusal :=
  match s.mode with
  | .halted _ _      => .next (s.setDiag false)
  | .waitingForKey x => .next ((s.setDiag false).pollKey x)
  | .running         => runCycle (s.setDiag false)

/-- One step: what the environment does before the cycle, then the cycle (40_cycle.md R100, R101; logs 3 and 4). -/
def stepCycle (s : State) : Host.Outcome State Fault Refusal :=
  cycle s.sampleInput

/-- Places a word where the next cycle fetches, and makes that cycle one that fetches (log 7). -/
def placeWord (s : State) (w : Word) : State :=
  ((s.memWrite s.pc.toNat (highByte w)).memWrite (s.pc.toNat + 1) (lowByte w)).setMode .running

end Sys2Proof.Machine
end

