-- ==== Sys2Proof/Machine/Step.lean ====
section
/-! DEFINITION. The step and the host's way to place an instruction. Everything they do stands in Machine/Cycle.lean. -/

namespace Sys2Proof.Machine

/-- One step of the machine: the environment's actions before a cycle, and the cycle (40_cycle.md R101). -/
def step (s : State) : Host.Outcome State Fault Refusal := stepCycle s

/-- `s` with the word `w` of the opcode table stored where the next step fetches, and the mode in which it fetches. -/
def State.withFetchWord (s : State) (nbits w : Nat) : State := placeWord s (tableWord nbits w)

end Sys2Proof.Machine
end

