-- ==== Sys2Proof/WellFormed.lean ====
section
/-! DEFINITION. The checks a written term must pass: operands in the range of their field (30_encoding.md R71, R73),
as many of each kind as the format names (R72), and the launch premises of the loader (70_reset_and_hazards.md R263, R264). -/

namespace Sys2Proof

/-- An operand fits its field: 4 bits for X, Y and N, 8 for NN, 12 for NNN (30_encoding.md R71). -/
def Operand.inRange : Operand → Bool
  | .reg n    => n < 16
  | .byte n   => n < 256
  | .addr n   => n < 4096
  | .nibble n => n < 16

/-- The kinds of operand a format names, in order (30_encoding.md R72). -/
def Format.accepts : Format → List Operand → Bool
  | .none, []                          => true
  | .a,    [.addr _]                   => true
  | .xnn,  [.reg _, .byte _]           => true
  | .xy,   [.reg _, .reg _]            => true
  | .xyn,  [.reg _, .reg _, .nibble _] => true
  | .x,    [.reg _]                    => true
  | _, _                               => false

/-- A list of written operands is well formed for a format. -/
def operandsWellFormed (f : Format) (ops : List Operand) : Bool :=
  f.accepts ops && ops.all Operand.inRange

/-- An instruction is well formed when its fields are those of its format and in range. The operand types of `Instr`
guarantee it (30_encoding.md R73: an index out of range "cannot occur"). -/
def Instr.wellFormed (i : Instr) : Bool :=
  operandsWellFormed i.format i.operands

/-- The `font` parameter is 16 glyphs of 5 bytes (70_reset_and_hazards.md R263). -/
def fontWellFormed (font : List Byte) : Bool :=
  font.length == Config.fontGlyphs * Config.glyphBytes

/-- "The image fits": a program is at most 4096 - 0x200 = 3584 bytes (70_reset_and_hazards.md R264). -/
def imageWellFormed (program : List Byte) : Bool :=
  program.length ≤ Config.memSize - Config.progBase

end Sys2Proof
end

