-- ==== Sys2Proof/Machine/Loader.lean ====
section
/-! DEFINITION. The program loader, the environment's only access to memory, before the first cycle (20_memory.md R64). -/

namespace Sys2Proof.Machine

/-- Writes the font at FONT_BASE, then the program from PROG_BASE, and nothing else (70_reset_and_hazards.md R263). -/
def State.load (s : State) (font program : List Byte) : State :=
  (s.memWriteList Config.fontBase font).memWriteList Config.progBase program

/-- A launch: reset, then the load. It exists only where the launch premises hold: the font is 80 bytes and the image
fits (70_reset_and_hazards.md R263, R264; log 10). -/
def State.boot (p : Config.ResetParams) (font program : List Byte) : Option State :=
  if fontWellFormed font && imageWellFormed program then some ((State.resetWith p).load font program) else none

end Sys2Proof.Machine
end

