-- ==== Sys2Proof/Safety.lean ====
section
/-! DEFINITION. The invariant every step keeps, what a safe state is, and where a run has ended. -/

namespace Sys2Proof.Machine

/-- What the mode says about the rest of the state. A waiting core stands behind the LD Vx,K that began the wait
(45_timers_keys.md R213). A halted core stands behind the CALL or RET its record names, with the stack full or empty
(60_exceptions.md R231, R232). -/
def State.modeRecordOk (s : State) : Bool :=
  match s.mode with
  | .running => true
  | .waitingForKey x => decide (decodeWord (s.wordAt (s.pc - 2)) = .instr (.ldKey x))
  | .halted .stackOverflow addr =>
    decide (addr = s.pc - 2) && decide (s.SP = 16) &&
      (match decodeWord (s.wordAt addr) with | .instr (.call _) => true | _ => false)
  | .halted .stackUnderflow addr =>
    decide (addr = s.pc - 2) && decide (s.SP = 0) && decide (decodeWord (s.wordAt addr) = .instr .ret)

/-- The invariant: memory is in canonical form, SP is in 0..16 (10_state.md R27), and the mode's record is sound. -/
def State.Inv (s : State) : Prop :=
  Memory.wf s.mem = true ∧ s.SP ≤ 16 ∧ s.modeRecordOk = true

/-- The core has halted: "HALTED is a fault: it is never a successful final state" (60_exceptions.md R242). -/
def State.isHalted (s : State) : Bool :=
  match s.mode with
  | .halted _ _ => true
  | _ => false

/-- The successful end of a run (70_reset_and_hazards.md R270): RUNNING at a self-jump. The core goes on executing it. -/
def State.atEnd (s : State) : Bool :=
  decide (s.mode = .running) && decide (s.pc ≤ 0xFFF) && decide (s.wordAt s.pc = 0x1000 ||| s.pc)

/-- A safe run of `k` steps: every step answers a next state and none of them is halted. -/
def safeRun : Nat → State → Prop
  | 0, s => s.isHalted = false
  | k + 1, s => s.isHalted = false ∧ ∃ t, step s = .next t ∧ safeRun k t

end Sys2Proof.Machine
end

