-- ==== Sys2Proof/Certificates/Slice0/Obligations.lean ====
section
/-! DEFINITION. The statements about the model. Each docstring names the rule of spec/ it formalises. `s` is the state
an instruction runs on: pc is already past its word (00_scope.md R11). -/

open Sys2Proof Sys2Proof.Machine

namespace Sys2Proof.Machine

/-- Every byte of memory reads as before. -/
def SameMemory (s t : State) : Prop := ∀ a : Nat, t.memRead a = s.memRead a

/-- Nothing but general registers differs: pc, I, SP, the stack, the timers, the display, the mode, the interface and
every byte of memory are as before. -/
def OnlyRegistersDiffer (s t : State) : Prop := t = { s with V := t.V } ∧ SameMemory s t

/-- Nothing but pc differs. -/
def OnlyPcDiffers (s t : State) : Prop := t = { s with pc := t.pc } ∧ SameMemory s t

/-- Nothing but I differs. -/
def OnlyIndexDiffers (s t : State) : Prop := t = { s with I := t.I } ∧ SameMemory s t

/-- Nothing but memory differs. -/
def OnlyMemoryDiffers (s t : State) : Prop := t = { s with mem := t.mem }

/-- The same state but for stack entries that are not occupied, those from SP on. -/
def SameButStaleStack (s t : State) : Prop :=
  t = { s with stack := t.stack } ∧ ∀ k : Fin 16, k.val < s.SP.toNat → t.stack[k] = s.stack[k]

/-- The call stack as a list, the most recent return address first (10_state.md R27, R28). -/
def callStack (s : State) : List Word :=
  ((List.finRange 16).take s.SP.toNat).reverse.map (fun k => s.stack[k])

/-- The registers an instruction may write (10_state.md R24): its destination, and VF for the flag writers (R23). -/
def mayWriteRegister (i : Instr) (r : Reg) : Prop :=
  match i with
  | .ldByte x _ | .addByte x _ | .ldReg x _ | .orReg x _ | .andReg x _ | .xorReg x _ | .rnd x _ | .ldFromDT x => r = x
  | .addReg x _ | .sub x _ | .shr x _ | .subn x _ | .shl x _ => r = x ∨ r = 15
  | .loadRegs x => r ≤ x
  | .drw _ _ _ => r = 15
  | .cls | .ret | .jp _ | .call _ | .seByte _ _ | .sneByte _ _ | .seReg _ _ | .sneReg _ _ | .ldI _ | .jpV0 _
  | .skp _ | .sknp _ | .ldKey _ | .ldToDT _ | .ldToST _ | .addI _ | .ldF _ | .ldB _ | .storeRegs _ => False

/-- The instructions that write pc beyond the fetch's advance (10_state.md R25). -/
def mayWritePc (i : Instr) : Prop :=
  match i with
  | .ret | .jp _ | .call _ | .seByte _ _ | .sneByte _ _ | .seReg _ _ | .sneReg _ _ | .jpV0 _ | .skp _ | .sknp _ => True
  | .cls | .ldByte _ _ | .addByte _ _ | .ldReg _ _ | .orReg _ _ | .andReg _ _ | .xorReg _ _ | .addReg _ _ | .sub _ _
  | .shr _ _ | .subn _ _ | .shl _ _ | .ldI _ | .rnd _ _ | .drw _ _ _ | .ldFromDT _ | .ldKey _ | .ldToDT _ | .ldToST _
  | .addI _ | .ldF _ | .ldB _ | .storeRegs _ | .loadRegs _ => False

/-- `b` is the byte at address `a` after `stored` has been stored at `base`, `base + 1`, ... from state `s`: the stored
byte where one lies, the earlier byte elsewhere, every address mod 4096. -/
def ByteAfterStore (s : State) (base : Nat) (stored : List Byte) (a : Nat) (b : Byte) : Prop :=
  (∀ j (h : j < stored.length), a % 4096 = (base + j) % 4096 → b = stored[j]) ∧
  ((∀ j, j < stored.length → a % 4096 ≠ (base + j) % 4096) → b = s.memRead a)

/-- A sprite of `n` rows at `addr`, drawn with its origin at (ox, oy), has a set bit over the pixel (u, v): bit 7 - c
of row r with u = ox + c and v = oy + r (44_display.md R192). -/
def SpriteCovers (s : State) (addr n ox oy u v : Nat) : Prop :=
  ∃ r c : Nat, r < n ∧ c < 8 ∧ u = ox + c ∧ v = oy + r ∧ (s.memRead (addr + r)).getLsbD (7 - c) = true

end Sys2Proof.Machine

/-! ### Reset and boot -/

/-- The reset state, for every value of the OPEN parameters: pc = 0x200, SP = 0, RUNNING, every pixel off, every byte
of memory 0 (70_reset_and_hazards.md, Reset). The parameters are arguments, as 92_eei_decisions.md D14 asks. -/
def Obligations.ResetStateForEveryParameter : Prop :=
  ∀ p : Config.ResetParams,
    (State.resetWith p).pc = 0x200 ∧ (State.resetWith p).SP = 0 ∧ (State.resetWith p).mode = .running ∧
    (∀ x y, (State.resetWith p).disp.pixel x y = false) ∧ (∀ a, (State.resetWith p).memRead a = 0) ∧
    (State.resetWith p).V = p.V ∧ (State.resetWith p).I = p.I ∧ (State.resetWith p).DT = p.DT ∧
    (State.resetWith p).ST = p.ST ∧ (State.resetWith p).stack = p.stack

/-- After a launch the core is RUNNING with pc = 0x200, so the first cycle fetches the word at 0x200 and 0x201, which is
the first word of the program where the image has one (70_reset_and_hazards.md, Reset and Boot; decision D16). -/
def Obligations.FirstFetchReadsProgramBase : Prop :=
  ∀ (p : Config.ResetParams) (font program : List Byte) (s : State), State.boot p font program = some s →
    s.mode = .running ∧ s.pc = 0x200 ∧
    s.fetchWord = BitVec.ofNat 16 ((s.memRead 0x200).toNat * 256 + (s.memRead 0x201).toNat) ∧
    (∀ hi lo rest, program = hi :: lo :: rest → s.fetchWord = BitVec.ofNat 16 (hi.toNat * 256 + lo.toNat))

/-- The invariant holds in the reset state, for every value of the OPEN parameters. -/
def Obligations.ResetMeetsInvariant : Prop :=
  ∀ p : Config.ResetParams, (State.resetWith p).Inv

/-- The loader (70_reset_and_hazards.md, Boot; decision D16): a launch exists exactly for a font of 80 bytes and an
image of at most 3584; then memory holds the font from 0x000, the program from 0x200 and 0 elsewhere, and nothing else
differs from reset. -/
def Obligations.BootLoadsFontAndProgram : Prop :=
  ∀ (p : Config.ResetParams) (font program : List Byte),
    ((State.boot p font program).isSome = true ↔ font.length = 80 ∧ program.length ≤ 3584) ∧
    ∀ s, State.boot p font program = some s →
      OnlyMemoryDiffers (State.resetWith p) s ∧ s.Inv ∧
      (∀ j, j < 80 → s.memRead j = font.getD j 0) ∧
      (∀ j, j < program.length → s.memRead (0x200 + j) = program.getD j 0) ∧
      (∀ a, 80 ≤ a → a < 4096 → (a < 0x200 ∨ 0x200 + program.length ≤ a) → s.memRead a = 0)

/-! ### Encoding -/

/-- Decoding the encoding of any instruction gives it back, every field at every value; every instruction is well
formed (30_encoding.md, Assembler syntax). The opcode values are general knowledge (log 11). -/
def Obligations.DecodeInvertsEncode : Prop :=
  ∀ i : Instr, i.wellFormed = true ∧ decodeWord (encode i) = .instr i

/-- For every word that decodes to an instruction, encoding that instruction gives back the same word (30_encoding.md,
Assembler syntax, the encoder), Y of SHR and SHL included. The opcode values are general knowledge (GK1, log 11). -/
def Obligations.EncodeInvertsDecode : Prop :=
  ∀ (w : Word) (i : Instr), decodeWord w = .instr i → encode i = w

/-- Every instruction is one big-endian word of two bytes: its bytes, followed by anything, decode to it and leave the
rest; fewer than two bytes, or an unrecognized word, are rejected by name. The byte list and its rejections are the
model's own, a fetch always has two bytes; the opcode values are general knowledge (GK1, log 11). -/
def Obligations.DecodeReadsOneWordOfBytes : Prop :=
  (∀ (i : Instr) (rest : List Byte), decodeBytes (encodeBytes i ++ rest) = .ok (i, rest)) ∧
  (∀ bs : List Byte, bs.length < 2 → decodeBytes bs = .error .truncated) ∧
  (∀ (hi lo : Byte) (rest : List Byte) (w : Word), decodeWord (hi ++ lo) = .unrecognized w →
    decodeBytes (hi :: lo :: rest) = .error (.unrecognized (hi ++ lo)))

/-- The UNRECOGNIZED words are exactly those of the table of 30_encoding.md (The unrecognized space): by op nibble,
low nibble and low byte. The opcode values are general knowledge, the place of 5XY0 and 9XY0 is decision D4 (log 11). -/
def Obligations.UnrecognizedWordsExactly : Prop :=
  ∀ w : Word, decodeWord w = .unrecognized w ↔
    (w.toNat / 4096 = 0 ∧ w ≠ 0x00E0 ∧ w ≠ 0x00EE) ∨
    (w.toNat / 4096 = 5 ∧ w.toNat % 16 ≠ 0) ∨
    (w.toNat / 4096 = 8 ∧ w.toNat % 16 ∈ [8, 9, 0xA, 0xB, 0xC, 0xD, 0xF]) ∨
    (w.toNat / 4096 = 9 ∧ w.toNat % 16 ≠ 0) ∨
    (w.toNat / 4096 = 0xE ∧ w.toNat % 256 ∉ [0x9E, 0xA1]) ∨
    (w.toNat / 4096 = 0xF ∧ w.toNat % 256 ∉ [0x07, 0x0A, 0x15, 0x18, 0x1E, 0x29, 0x33, 0x55, 0x65])

/-- Words written out from 30_encoding.md's opcode map decode to the instruction they stand for, one of each table and
format, and four unrecognized ones. The opcode values are general knowledge (log 11). -/
def Obligations.WordsOfTheOpcodeMapDecode : Prop :=
  decodeWord 0x00EE = .instr .ret ∧ decodeWord 0x1ABC = .instr (.jp 0xABC) ∧
  decodeWord 0x6A42 = .instr (.ldByte 10 0x42) ∧ decodeWord 0x8125 = .instr (.sub 1 2) ∧
  decodeWord 0x8FFE = .instr (.shl 15 15) ∧ decodeWord 0xD12F = .instr (.drw 1 2 15) ∧
  decodeWord 0xE19E = .instr (.skp 1) ∧ decodeWord 0xF365 = .instr (.loadRegs 3) ∧
  decodeWord 0x0000 = .unrecognized 0x0000 ∧ decodeWord 0x5121 = .unrecognized 0x5121 ∧
  decodeWord 0x8128 = .unrecognized 0x8128 ∧ decodeWord 0xFFFF = .unrecognized 0xFFFF

/-! ### The cycle -/

/-- A RUNNING step fetches the big-endian word at pc, pc + 1, and runs the instruction it decodes to, on the state in
which the environment has acted, the diagnostic is 0 and pc has advanced by 2 (40_cycle.md, RUNNING: fetch, dispatch;
the diagnostic is decision D17, the reduction of the fetch's addresses decision D7, log 15). -/
def Obligations.StepRunsDecodedInstruction : Prop :=
  ∀ (s : State) (i : Instr), s.mode = .running →
    decodeWord (BitVec.ofNat 16 ((s.memRead s.pc.toNat).toNat * 256 + (s.memRead (s.pc.toNat + 1)).toNat)) = .instr i →
    step s = exec i { s.sampleInput with diagUnrecognized := false, pc := s.pc + 2 }

/-- A RUNNING step that fetches an UNRECOGNIZED word changes pc, which advances by 2, and the diagnostic, which is 1;
nothing else but what the environment did before it (40_cycle.md, RUNNING: dispatch; decision D17). The reduction of
the fetch's addresses is decision D7 (log 15). -/
def Obligations.UnrecognizedWordIsNoOp : Prop :=
  ∀ (s : State) (w : Word), s.mode = .running →
    decodeWord (BitVec.ofNat 16 ((s.memRead s.pc.toNat).toNat * 256 + (s.memRead (s.pc.toNat + 1)).toNat)) =
      .unrecognized w →
    step s = .next { s.sampleInput with diagUnrecognized := true, pc := s.pc + 2 }

/-- A WAITING step without a key changes nothing, and one with KEY(k) writes k into the captured register and resumes
RUNNING; neither fetches or moves pc (40_cycle.md, WAITING_FOR_KEY; decision D12). That the diagnostic is 0 is
decision D17 (log 6). -/
def Obligations.WaitingStepPollsTheKey : Prop :=
  ∀ (s : State) (x : Reg), s.mode = .waitingForKey x →
    ∃ t, step s = .next t ∧ t.pc = s.pc ∧ t.diagUnrecognized = false ∧ SameMemory s t ∧
      t = { s.sampleInput with V := t.V, mode := t.mode, diagUnrecognized := false } ∧
      (s.sampleInput.keyIn = none → t.mode = .waitingForKey x ∧ t.V = s.V) ∧
      (∀ k : Key, s.sampleInput.keyIn = some k → t.mode = .running ∧ (t.getV x).toNat = k.toNat ∧
        ∀ r, r ≠ x → t.getV r = s.getV r)

/-- A wait lasts as long as no key is presented and ends with the first one: after any number of inputs without a key
and one with KEY(k), the register holds k, the mode is RUNNING, pc, every other register and memory are as when the
wait began (95_test_vectors.md E11; decision D12, log 14; the inputs as data are log 3). -/
def Obligations.WaitEndsWithTheFirstKey : Prop :=
  ∀ (quiet : List Config.CycleInput) (last : Config.CycleInput) (more : List Config.CycleInput) (k : Key) (s : State)
    (x : Reg), s.mode = .waitingForKey x → (∀ a ∈ quiet, a.key = none) → last.key = some k →
    s.inputs = quiet ++ last :: more →
    ∃ t, Host.Core.run core (quiet.length + 1) s = .next t ∧ t.mode = .running ∧ t.pc = s.pc ∧
      (t.getV x).toNat = k.toNat ∧ (∀ r, r ≠ x → t.getV r = s.getV r) ∧ SameMemory s t ∧ t.inputs = more

/-- A HALTED core stays as it is for every later cycle: only the environment's ticks and inputs go on (40_cycle.md,
60_exceptions.md, Halt entry and return; decision D5, log 9). That no tick raises DT or ST rests on the saturation at
0, which is general knowledge (45_timers_keys.md, The timer environment; decision D13, GK4, log 14). -/
def Obligations.HaltIsPermanent : Prop :=
  ∀ (k : Nat) (s : State) (c : HaltCause) (addr : Word), s.mode = .halted c addr →
    ∃ t, Host.Core.run core k s = .next t ∧ t.mode = .halted c addr ∧
      (t.V, t.I, t.pc, t.SP, t.stack, t.disp) = (s.V, s.I, s.pc, s.SP, s.stack, s.disp) ∧ SameMemory s t ∧
      t.DT ≤ s.DT ∧ t.ST ≤ s.ST ∧ (0 < k → t.diagUnrecognized = false)

/-- The core keeps no record of earlier inputs: a step does not depend on the key and the random byte of the cycle
before it (40_cycle.md, the key sample; decision D12). -/
def Obligations.StepForgetsEarlierSamples : Prop :=
  ∀ (s : State) (k : Option Key) (r : Byte) (d : Bool),
    step { s with keyIn := k, randIn := r, diagUnrecognized := d } = step s

/-- Before a cycle the environment may tick each timer any number of times, saturating at 0, and presents one key and
one random byte; from every state, whether the input list names that input or is empty and the free value stands for it,
it only lowers DT and ST and changes nothing else of the machine, no byte of memory either (45_timers_keys.md, The timer
environment; decision D13, GK4, log 14; the inputs as data are log 3). -/
def Obligations.EnvironmentTicksAndSamples : Prop :=
  (∀ s : State, s.tickDT.DT.toNat = s.DT.toNat - 1 ∧ s.tickDT = { s with DT := s.tickDT.DT } ∧
    s.tickST.ST.toNat = s.ST.toNat - 1 ∧ s.tickST = { s with ST := s.tickST.ST }) ∧
  (∀ s : State, s.sampleInput.DT.toNat = s.DT.toNat - s.nextInput.ticksDT ∧
    s.sampleInput.ST.toNat = s.ST.toNat - s.nextInput.ticksST ∧ SameMemory s s.sampleInput ∧
    s.sampleInput = { s with DT := s.sampleInput.DT, ST := s.sampleInput.ST, keyIn := s.nextInput.key,
                             randIn := s.nextInput.rand, inputs := s.inputs.tail, cycleNo := s.cycleNo + 1 }) ∧
  (∀ (s : State) (a : Config.CycleInput) (rest : List Config.CycleInput), s.inputs = a :: rest →
    s.nextInput = a ∧ s.sampleInput.inputs = rest) ∧
  ∀ s : State, s.inputs = [] → s.nextInput = Config.freeInput s.cycleNo ∧ s.sampleInput.inputs = []

/-- Every cycle completes: from a state that meets the invariant, a step answers a next state, whatever the
environment does (40_cycle.md, Block interface: no operation blocks). That CALL and RET on a stack bound complete, by
a halt that is a next state, is decisions D5 and D18 (log 9). -/
def Obligations.EveryCycleCompletes : Prop :=
  ∀ s : State, s.Inv → ∃ t, step s = .next t

/-- Every step keeps the invariant: memory stays canonical, SP stays in 0..16 (10_state.md, Stack pointer), a waiting
core stands behind its LD Vx,K, and a halted core's record names the CALL or RET that halted (60_exceptions.md;
decisions D5, D12, D18, D21). -/
def Obligations.StepKeepsInvariant : Prop :=
  ∀ s t : State, s.Inv → step s = .next t → t.Inv

/-- The end of a run, a self-jump in RUNNING, goes on for ever: every later step executes the self-jump again and
leaves registers, memory, stack and display as they are (70_reset_and_hazards.md, End of a run; decision D25). -/
def Obligations.SelfJumpRunsForEver : Prop :=
  ∀ (k : Nat) (s : State), s.atEnd = true →
    ∃ t, Host.Core.run core k s = .next t ∧ t.atEnd = true ∧ t.pc = s.pc ∧
      (t.V, t.I, t.SP, t.stack, t.disp, t.mode) = (s.V, s.I, s.SP, s.stack, s.disp, s.mode) ∧ SameMemory s t

/-! ### Control transfer -/

/-- 41_control_flow.md R120: JP sets pc to NNN; nothing else changes. -/
def Obligations.JpSetsPc : Prop :=
  ∀ (s : State) (nnn : Addr12),
    ∃ t, exec (.jp nnn) s = .next t ∧ t.pc.toNat = nnn.toNat ∧ OnlyPcDiffers s t

/-- JP V0 sets pc to V0 + NNN, unreduced (41_control_flow.md, JP V0); that the next fetch reduces it mod 4096 is decision
D7 and 90_conflicts.md C7 (log 15). -/
def Obligations.JpV0AddsTheOffset : Prop :=
  ∀ (s : State) (nnn : Addr12),
    ∃ t, exec (.jpV0 nnn) s = .next t ∧ t.pc.toNat = (s.getV 0).toNat + nnn.toNat ∧ t.pc.toNat ≤ 0x10FE ∧
      OnlyPcDiffers s t ∧
      t.fetchWord = BitVec.ofNat 16 ((s.memRead (t.pc.toNat % 4096)).toNat * 256 +
        (s.memRead ((t.pc.toNat + 1) % 4096)).toNat)

/-- 41_control_flow.md R123 and R124: SE and SNE with a byte move pc by 2 more exactly when V[X] equals NN, or differs. -/
def Obligations.ByteSkipsCompare : Prop :=
  ∀ (s : State) (x : Reg) (nn : Byte),
    (∃ t, exec (.seByte x nn) s = .next t ∧ OnlyPcDiffers s t ∧
      (s.getV x = nn → t.pc.toNat = (s.pc.toNat + 2) % 65536) ∧ (s.getV x ≠ nn → t.pc = s.pc)) ∧
    (∃ t, exec (.sneByte x nn) s = .next t ∧ OnlyPcDiffers s t ∧
      (s.getV x ≠ nn → t.pc.toNat = (s.pc.toNat + 2) % 65536) ∧ (s.getV x = nn → t.pc = s.pc))

/-- 41_control_flow.md R125 and R126: SE and SNE with a register; with X = Y, SE always skips and SNE never does. -/
def Obligations.RegisterSkipsCompare : Prop :=
  ∀ (s : State) (x y : Reg),
    (∃ t, exec (.seReg x y) s = .next t ∧ OnlyPcDiffers s t ∧
      (s.getV x = s.getV y → t.pc.toNat = (s.pc.toNat + 2) % 65536) ∧ (s.getV x ≠ s.getV y → t.pc = s.pc) ∧
      (x = y → t.pc.toNat = (s.pc.toNat + 2) % 65536)) ∧
    (∃ t, exec (.sneReg x y) s = .next t ∧ OnlyPcDiffers s t ∧
      (s.getV x ≠ s.getV y → t.pc.toNat = (s.pc.toNat + 2) % 65536) ∧ (s.getV x = s.getV y → t.pc = s.pc) ∧
      (x = y → t.pc = s.pc))

/-- CALL with a free entry: the advanced pc is pushed at SP, SP counts one more, pc is NNN; every other stack entry and
everything else stays (41_control_flow.md, CALL). -/
def Obligations.CallPushesAndJumps : Prop :=
  ∀ (s : State) (nnn : Addr12), s.SP < 16 →
    ∃ t, exec (.call nnn) s = .next t ∧ t.pc.toNat = nnn.toNat ∧ t.SP.toNat = s.SP.toNat + 1 ∧
      (∀ k : Fin 16, t.stack[k] = if k.val = s.SP.toNat then s.pc else s.stack[k]) ∧
      t = { s with pc := t.pc, SP := t.SP, stack := t.stack } ∧ SameMemory s t

/-- RET with an occupied entry: SP counts one less and pc is the entry it uncovers, which keeps its value; everything
else stays (41_control_flow.md, RET; the order is 90_conflicts.md C3). -/
def Obligations.RetPopsAndReturns : Prop :=
  ∀ s : State, 0 < s.SP → s.SP ≤ 16 →
    ∃ t, exec .ret s = .next t ∧ t.SP.toNat + 1 = s.SP.toNat ∧
      (∀ k : Fin 16, k.val + 1 = s.SP.toNat → t.pc = s.stack[k]) ∧
      t = { s with pc := t.pc, SP := t.SP } ∧ SameMemory s t

/-- The halts: CALL with SP = 16 and RET with SP = 0 write only the mode, HALTED with the cause and the address of the
instruction, pc - 2 (60_exceptions.md, Halt entry and return; decisions D5, D18, D21). -/
def Obligations.StackBoundsHalt : Prop :=
  (∀ (s : State) (nnn : Addr12), s.SP = 16 →
    ∃ t, exec (.call nnn) s = .next t ∧ t = { s with mode := .halted .stackOverflow (s.pc - 2) } ∧ SameMemory s t) ∧
  (∀ s : State, s.SP = 0 →
    ∃ t, exec .ret s = .next t ∧ t = { s with mode := .halted .stackUnderflow (s.pc - 2) } ∧ SameMemory s t)

/-- The MODEL's choice (log 8): with SP above 16, which no run reaches, CALL and RET fault, the stack entry being absent. -/
def Obligations.AbsentStackEntryFaults : Prop :=
  ∀ s : State, 16 < s.SP →
    (∀ nnn : Addr12, exec (.call nnn) s = .fault .stackEntryAbsent) ∧ exec .ret s = .fault .stackEntryAbsent

/-- The call stack is last-in, first-out, and CALL and RET are its only users (41_control_flow.md, R128's derivation):
as a list, CALL with a free entry pushes the advanced pc, RET with an occupied one pops and returns to the head, and no
other instruction changes it. That CALL with SP = 16 leaves the list and RET on the empty list leaves it empty is the halt
of decisions D5 and D18 (log 9), not R128, which speaks only of sequences that do not halt. -/
def Obligations.CallStackIsLastInFirstOut : Prop :=
  ∀ (i : Instr) (s t : State), s.SP ≤ 16 → exec i s = .next t →
    match i with
    | .call _ => (s.SP < 16 → callStack t = s.pc :: callStack s) ∧ (s.SP = 16 → callStack t = callStack s)
    | .ret => (∀ a l, callStack s = a :: l → t.pc = a ∧ callStack t = l) ∧ (callStack s = [] → callStack t = [])
    | _ => callStack t = callStack s

/-- CALL and then the RET of the called routine: pc is the address after the CALL and SP is what it was before
(95_test_vectors.md E6; the order of RET's reads is 90_conflicts.md C3). -/
def Obligations.CallThenRetReturns : Prop :=
  ∀ (s : State) (nnn : Addr12), s.SP < 16 →
    ∃ t, exec (.call nnn) s = .next t ∧
      ∀ u : State, u.SP = t.SP → u.stack = t.stack →
        ∃ v, exec .ret u = .next v ∧ v.pc = s.pc ∧ v.SP = s.SP

/-- Stack entries from SP on are unobservable: two states that differ only there step to states that differ only
there, so no run depends on what the stack holds at reset (10_state.md, Call stack; log 2). At the stack bounds it
rests on the halt of decisions D5 and D18 (log 9). -/
def Obligations.StaleStackEntriesAreUnobservable : Prop :=
  ∀ s t u : State, s.SP ≤ 16 → SameButStaleStack s t → step s = .next u →
    ∃ v, step t = .next v ∧ SameButStaleStack u v

/-! ### Register loads and the ALU -/

/-- 42_alu.md R140, R141, R142: LD Vx,byte, ADD Vx,byte and LD Vx,Vy write V[X] and nothing else; the sum is mod 256 and
sets no flag. -/
def Obligations.LoadsAndImmediateAdd : Prop :=
  ∀ (s : State) (x y : Reg) (nn : Byte),
    (∃ t, exec (.ldByte x nn) s = .next t ∧ t.getV x = nn ∧ (∀ r, r ≠ x → t.getV r = s.getV r) ∧
      OnlyRegistersDiffer s t) ∧
    (∃ t, exec (.addByte x nn) s = .next t ∧ (t.getV x).toNat = ((s.getV x).toNat + nn.toNat) % 256 ∧
      (∀ r, r ≠ x → t.getV r = s.getV r) ∧ OnlyRegistersDiffer s t) ∧
    (∃ t, exec (.ldReg x y) s = .next t ∧ t.getV x = s.getV y ∧ (∀ r, r ≠ x → t.getV r = s.getV r) ∧
      OnlyRegistersDiffer s t)

/-- OR, AND and XOR combine V[X] and V[Y] bit by bit into V[X] and write no flag (42_alu.md, register-pair family;
decision D9). -/
def Obligations.LogicIsBitwise : Prop :=
  ∀ (s : State) (x y : Reg),
    (∃ t, exec (.orReg x y) s = .next t ∧ OnlyRegistersDiffer s t ∧ (∀ r, r ≠ x → t.getV r = s.getV r) ∧
      ∀ b, (t.getV x).getLsbD b = ((s.getV x).getLsbD b || (s.getV y).getLsbD b)) ∧
    (∃ t, exec (.andReg x y) s = .next t ∧ OnlyRegistersDiffer s t ∧ (∀ r, r ≠ x → t.getV r = s.getV r) ∧
      ∀ b, (t.getV x).getLsbD b = ((s.getV x).getLsbD b && (s.getV y).getLsbD b)) ∧
    (∃ t, exec (.xorReg x y) s = .next t ∧ OnlyRegistersDiffer s t ∧ (∀ r, r ≠ x → t.getV r = s.getV r) ∧
      ∀ b, (t.getV x).getLsbD b = ((s.getV x).getLsbD b ^^ (s.getV y).getLsbD b))

/-- 42_alu.md R146: ADD Vx,Vy writes the sum mod 256 into V[X] and the carry into VF, VF first: with X = F the sum
stays. -/
def Obligations.AddSetsCarry : Prop :=
  ∀ (s : State) (x y : Reg),
    ∃ t, exec (.addReg x y) s = .next t ∧ OnlyRegistersDiffer s t ∧
      (t.getV x).toNat = ((s.getV x).toNat + (s.getV y).toNat) % 256 ∧
      (x ≠ 15 → t.getV 15 = if (s.getV x).toNat + (s.getV y).toNat > 255 then 1 else 0) ∧
      (∀ r, r ≠ x → r ≠ 15 → t.getV r = s.getV r)

/-- SUB writes V[X] - V[Y] and SUBN V[Y] - V[X], mod 256, into V[X]; VF is 1 exactly when there is no borrow; with X = F
the difference stays (42_alu.md, register-pair family). That equal operands give VF = 1 is the resolution of
90_conflicts.md C4 (log 12). -/
def Obligations.SubtractionsSetNotBorrow : Prop :=
  ∀ (s : State) (x y : Reg),
    (∃ t, exec (.sub x y) s = .next t ∧ OnlyRegistersDiffer s t ∧
      (t.getV x).toNat = ((s.getV x).toNat + 256 - (s.getV y).toNat) % 256 ∧
      (x ≠ 15 → t.getV 15 = if s.getV y ≤ s.getV x then 1 else 0) ∧
      (∀ r, r ≠ x → r ≠ 15 → t.getV r = s.getV r)) ∧
    (∃ t, exec (.subn x y) s = .next t ∧ OnlyRegistersDiffer s t ∧
      (t.getV x).toNat = ((s.getV y).toNat + 256 - (s.getV x).toNat) % 256 ∧
      (x ≠ 15 → t.getV 15 = if s.getV x ≤ s.getV y then 1 else 0) ∧
      (∀ r, r ≠ x → r ≠ 15 → t.getV r = s.getV r))

/-- SHR and SHL move V[X] by one bit and VF takes the bit shifted out; Y has no effect; with X = F the shifted value
stays (42_alu.md, register-pair family; decision D8). -/
def Obligations.ShiftsMoveOneBit : Prop :=
  ∀ (s : State) (x y : Reg),
    (∃ t, exec (.shr x y) s = .next t ∧ (∀ y', exec (.shr x y') s = .next t) ∧ OnlyRegistersDiffer s t ∧
      (t.getV x).toNat = (s.getV x).toNat / 2 ∧ (x ≠ 15 → (t.getV 15).toNat = (s.getV x).toNat % 2) ∧
      (∀ r, r ≠ x → r ≠ 15 → t.getV r = s.getV r)) ∧
    (∃ t, exec (.shl x y) s = .next t ∧ (∀ y', exec (.shl x y') s = .next t) ∧ OnlyRegistersDiffer s t ∧
      (t.getV x).toNat = (s.getV x).toNat * 2 % 256 ∧ (x ≠ 15 → (t.getV 15).toNat = (s.getV x).toNat / 128) ∧
      (∀ r, r ≠ x → r ≠ 15 → t.getV r = s.getV r))

/-- RND writes the cycle's random byte AND NN into V[X]: every bit outside NN is 0, and any byte under NN is the result
of some draw (42_alu.md, Random; decision D20). -/
def Obligations.RndMasksTheDraw : Prop :=
  ∀ (s : State) (x : Reg) (nn : Byte),
    (∃ t, exec (.rnd x nn) s = .next t ∧ OnlyRegistersDiffer s t ∧ (∀ r, r ≠ x → t.getV r = s.getV r) ∧
      ∀ b, (t.getV x).getLsbD b = (s.randIn.getLsbD b && nn.getLsbD b)) ∧
    (∀ v : Byte, v &&& nn = v → ∃ (r : Byte) (t : State), exec (.rnd x nn) { s with randIn := r } = .next t ∧
      t.getV x = v)

/-! ### Index register and memory transfer -/

/-- 43_index_memory.md R170 and R172: LD I,addr sets I to NNN, and LD F,Vx to five times the low nibble of V[X]. -/
def Obligations.IndexLoads : Prop :=
  ∀ (s : State) (nnn : Addr12) (x : Reg),
    (∃ t, exec (.ldI nnn) s = .next t ∧ t.I.toNat = nnn.toNat ∧ OnlyIndexDiffers s t) ∧
    (∃ t, exec (.ldF x) s = .next t ∧ t.I.toNat = 0x000 + (s.getV x).toNat % 16 * 5 ∧ t.I.toNat ≤ 0x04B ∧
      OnlyIndexDiffers s t)

/-- ADD I,Vx adds V[X] to I mod 65536, not reduced to 12 bits, and writes no flag (43_index_memory.md, ADD I; decision
D9). -/
def Obligations.AddToIndex : Prop :=
  ∀ (s : State) (x : Reg),
    ∃ t, exec (.addI x) s = .next t ∧ t.I.toNat = (s.I.toNat + (s.getV x).toNat) % 65536 ∧ OnlyIndexDiffers s t

/-- LD B,Vx stores the hundreds, tens and ones of V[X] at I, I + 1, I + 2; every other byte and everything else is as
before (43_index_memory.md, LD B). That each address is taken mod 4096 is decision D7 and 90_conflicts.md C7 (log 15),
that I stays is decision D9 (log 12). -/
def Obligations.BcdStoresThreeDigits : Prop :=
  ∀ (s : State) (x : Reg), Memory.wf s.mem = true →
    ∃ t, exec (.ldB x) s = .next t ∧ OnlyMemoryDiffers s t ∧
      (t.memRead s.I.toNat).toNat = (s.getV x).toNat / 100 ∧
      (t.memRead (s.I.toNat + 1)).toNat = (s.getV x).toNat / 10 % 10 ∧
      (t.memRead (s.I.toNat + 2)).toNat = (s.getV x).toNat % 10 ∧
      (∀ a, a % 4096 ≠ s.I.toNat % 4096 → a % 4096 ≠ (s.I.toNat + 1) % 4096 → a % 4096 ≠ (s.I.toNat + 2) % 4096 →
        t.memRead a = s.memRead a)

/-- LD [I],Vx stores V[0]..V[X] at I..I + X, each address mod 4096, leaves I, and changes no other byte and nothing else
(43_index_memory.md, LD [I],Vx; decision D9). -/
def Obligations.RegisterSaveStoresEach : Prop :=
  ∀ (s : State) (x : Reg), Memory.wf s.mem = true →
    ∃ t, exec (.storeRegs x) s = .next t ∧ OnlyMemoryDiffers s t ∧
      (∀ i : Reg, i ≤ x → t.memRead (s.I.toNat + i.val) = s.getV i) ∧
      (∀ a, (∀ i : Reg, i ≤ x → a % 4096 ≠ (s.I.toNat + i.val) % 4096) → t.memRead a = s.memRead a)

/-- LD Vx,[I] loads V[0]..V[X] from I..I + X and changes no other register and nothing else (43_index_memory.md, LD
Vx,[I]; decision D9, log 12). That each address is taken mod 4096 is decision D7 and 90_conflicts.md C7 (log 15). -/
def Obligations.RegisterLoadReadsEach : Prop :=
  ∀ (s : State) (x : Reg),
    ∃ t, exec (.loadRegs x) s = .next t ∧ OnlyRegistersDiffer s t ∧
      (∀ i : Reg, i ≤ x → t.getV i = s.memRead (s.I.toNat + i.val)) ∧
      (∀ r : Reg, x < r → t.getV r = s.getV r)

/-- Saving V[0]..V[X] and loading them into any register bank from the same address gives identical register values
(95_test_vectors.md E9; where I..I + X passes 0xFFF it rests on decision D7, log 15). -/
def Obligations.SaveThenLoadRestores : Prop :=
  ∀ (s : State) (x : Reg), Memory.wf s.mem = true →
    ∃ t, exec (.storeRegs x) s = .next t ∧
      ∀ u : State, u.mem = t.mem → u.I = s.I →
        ∃ v, exec (.loadRegs x) u = .next v ∧ (∀ i : Reg, i ≤ x → v.getV i = s.getV i) ∧
          (∀ r : Reg, x < r → v.getV r = u.getV r)

/-- A store is seen by the next fetch, with no fence: after LD [I],Vx and after LD B,Vx, the word fetched at any pc is made
of the byte stored at an address where the instruction stored one and of the earlier byte where it did not, be both, one or
none of the word's bytes stored (20_memory.md, Ordering and synchronisation; the address reduction is decision D7,
log 15). -/
def Obligations.StoredCodeIsFetched : Prop :=
  ∀ (s : State) (x : Reg), Memory.wf s.mem = true →
    (∃ t, exec (.storeRegs x) s = .next t ∧
      ∀ pc : Word, ∃ hi lo : Byte, (t.setPc pc).fetchWord = BitVec.ofNat 16 (hi.toNat * 256 + lo.toNat) ∧
        ByteAfterStore s s.I.toNat (((List.finRange 16).take (x.val + 1)).map s.getV) pc.toNat hi ∧
        ByteAfterStore s s.I.toNat (((List.finRange 16).take (x.val + 1)).map s.getV) (pc.toNat + 1) lo) ∧
    (∃ t, exec (.ldB x) s = .next t ∧
      ∀ pc : Word, ∃ hi lo : Byte, (t.setPc pc).fetchWord = BitVec.ofNat 16 (hi.toNat * 256 + lo.toNat) ∧
        ByteAfterStore s s.I.toNat (bcdDigits (s.getV x)) pc.toNat hi ∧
        ByteAfterStore s s.I.toNat (bcdDigits (s.getV x)) (pc.toNat + 1) lo)

/-! ### Display -/

/-- 44_display.md R195: CLS turns every pixel off and changes nothing else. -/
def Obligations.ClsTurnsEveryPixelOff : Prop :=
  ∀ s : State, ∃ t, exec .cls s = .next t ∧ (∀ x y, t.disp.pixel x y = false) ∧
    t = { s with disp := t.disp } ∧ SameMemory s t

/-- DRW flips exactly the on-screen pixels under a set bit of the sprite, read from I on, at the origin V[X], V[Y],
which is not wrapped; VF is 1 exactly when a pixel went from on to off, else 0; nothing else changes (44_display.md;
the bit order is decision D10, GK3, log 13; N = 0 is decision D11; the rows' addresses mod 4096 are decision D7, log 15). -/
def Obligations.DrwFlipsPixelsAndReportsCollision : Prop :=
  ∀ (s : State) (x y : Reg) (n : Nibble),
    ∃ t, exec (.drw x y n) s = .next t ∧
      (∀ u v, u < 64 → v < 32 →
        (t.disp.pixel u v ≠ s.disp.pixel u v ↔
          SpriteCovers s s.I.toNat n.toNat (s.getV x).toNat (s.getV y).toNat u v)) ∧
      ((t.getV 15 = 1 ∧ ∃ u v, s.disp.pixel u v = true ∧ t.disp.pixel u v = false) ∨
        (t.getV 15 = 0 ∧ ∀ u v, s.disp.pixel u v = true → t.disp.pixel u v = true)) ∧
      (∀ r, r ≠ 15 → t.getV r = s.getV r) ∧ t = { s with disp := t.disp, V := t.V } ∧ SameMemory s t

/-- A sprite of no rows, or with its origin at x >= 64 or y >= 32, draws nothing and VF becomes 0: the origin is not
wrapped (44_display.md, Clipping and wrap; N = 0 is decision D11). -/
def Obligations.DrwOffScreenDrawsNothing : Prop :=
  ∀ (s : State) (x y : Reg) (n : Nibble), (64 ≤ (s.getV x).toNat ∨ 32 ≤ (s.getV y).toNat ∨ n = 0) →
    ∃ t, exec (.drw x y n) s = .next t ∧ t.disp = s.disp ∧ t.getV 15 = 0 ∧ (∀ r, r ≠ 15 → t.getV r = s.getV r)

/-- Drawing the same sprite at the same origin twice restores the buffer, and the second draw collides exactly when
the sprite has a set bit on screen (95_test_vectors.md E7; 44_display.md). Which bits of the sprite lie on screen
rests on the bit and row order of decision D10, GK3 (log 13). X and Y are not F, where the first draw moves the
origin. For N = 0 it rests on decision D11, for rows past 0xFFF on decision D7 (log 15). -/
def Obligations.DrwTwiceRestores : Prop :=
  ∀ (s : State) (x y : Reg) (n : Nibble), x ≠ 15 → y ≠ 15 → (∀ u v, s.disp.pixel u v = false) →
    ∃ t w, exec (.drw x y n) s = .next t ∧ exec (.drw x y n) t = .next w ∧ w.disp = s.disp ∧ t.getV 15 = 0 ∧
      (w.getV 15 = 1 ↔ ∃ u v, u < 64 ∧ v < 32 ∧
        SpriteCovers s s.I.toNat n.toNat (s.getV x).toNat (s.getV y).toNat u v)

/-- Drawing twice restores any buffer, whatever was on it (44_display.md, the XOR of draw_sprite). For N = 0 it rests
on decision D11 (log 13). -/
def Obligations.DrwTwiceRestoresAnyBuffer : Prop :=
  ∀ (s : State) (x y : Reg) (n : Nibble), x ≠ 15 → y ≠ 15 →
    ∃ t w, exec (.drw x y n) s = .next t ∧ exec (.drw x y n) t = .next w ∧ w = { s with V := w.V } ∧
      (∀ r, r ≠ 15 → w.getV r = s.getV r)

/-! ### Keypad and timers -/

/-- SKP moves pc by 2 more exactly when this cycle's key, zero-extended, equals the whole of V[X]; SKNP exactly when it
does not, no key included (45_timers_keys.md, Key instructions; 90_conflicts.md C5). -/
def Obligations.KeySkipsCompareTheSample : Prop :=
  ∀ (s : State) (x : Reg),
    (∃ t, exec (.skp x) s = .next t ∧ OnlyPcDiffers s t ∧
      ((∃ k, s.keyIn = some k ∧ (s.getV x).toNat = k.toNat) → t.pc.toNat = (s.pc.toNat + 2) % 65536) ∧
      ((∀ k, s.keyIn = some k → (s.getV x).toNat ≠ k.toNat) → t.pc = s.pc)) ∧
    (∃ t, exec (.sknp x) s = .next t ∧ OnlyPcDiffers s t ∧
      ((∀ k, s.keyIn = some k → (s.getV x).toNat ≠ k.toNat) → t.pc.toNat = (s.pc.toNat + 2) % 65536) ∧
      ((∃ k, s.keyIn = some k ∧ (s.getV x).toNat = k.toNat) → t.pc = s.pc))

/-- LD Vx,K begins the wait and does nothing else, whatever key its own cycle presents (45_timers_keys.md, LD Vx,K;
decision D12). -/
def Obligations.KeyWaitBegins : Prop :=
  ∀ (s : State) (x : Reg),
    ∃ t, exec (.ldKey x) s = .next t ∧ t = { s with mode := .waitingForKey x } ∧ SameMemory s t

/-- LD Vx,DT reads the delay timer, LD DT,Vx and LD ST,Vx write the timers; nothing else changes (45_timers_keys.md, Timer
instructions). -/
def Obligations.TimerTransfers : Prop :=
  ∀ (s : State) (x : Reg),
    (∃ t, exec (.ldFromDT x) s = .next t ∧ t.getV x = s.DT ∧ (∀ r, r ≠ x → t.getV r = s.getV r) ∧
      OnlyRegistersDiffer s t) ∧
    (∃ t, exec (.ldToDT x) s = .next t ∧ t = { s with DT := s.getV x } ∧ SameMemory s t) ∧
    (∃ t, exec (.ldToST x) s = .next t ∧ t = { s with ST := s.getV x } ∧ SameMemory s t)

/-! ### Whole-machine rules -/

/-- Only the instructions 10_state.md lists write general registers, and each only its own (General registers; what an
instruction does not list it does not write, decision D9). -/
def Obligations.OnlyListedInstructionsWriteRegisters : Prop :=
  ∀ (i : Instr) (s t : State) (r : Reg), exec i s = .next t → ¬ mayWriteRegister i r → t.getV r = s.getV r

/-- Each special register, the display and memory has only the writers 10_state.md and 20_memory.md name: I by LD I,
ADD I, LD F; DT by LD DT; ST by LD ST; SP and stack by CALL and RET; disp by CLS and DRW; memory by LD B and LD [I];
mode by LD Vx,K and the halts; pc by jumps, CALL, RET and skips. The interface fields have none (decisions D5, D9, D18). -/
def Obligations.EachStateHasItsOwnWriters : Prop :=
  ∀ (i : Instr) (s t : State), exec i s = .next t →
    (t.I ≠ s.I → (∃ a, i = .ldI a) ∨ (∃ x, i = .addI x) ∨ ∃ x, i = .ldF x) ∧
    (t.DT ≠ s.DT → ∃ x, i = .ldToDT x) ∧ (t.ST ≠ s.ST → ∃ x, i = .ldToST x) ∧
    (t.SP ≠ s.SP ∨ t.stack ≠ s.stack → (∃ a, i = .call a) ∨ i = .ret) ∧
    (t.disp ≠ s.disp → i = .cls ∨ ∃ x y n, i = .drw x y n) ∧
    (¬ SameMemory s t → (∃ x, i = .ldB x) ∨ ∃ x, i = .storeRegs x) ∧
    (t.mode ≠ s.mode → (∃ x, i = .ldKey x) ∨ ((∃ a, i = .call a) ∧ s.SP = 16) ∨ (i = .ret ∧ s.SP = 0)) ∧
    (¬ mayWritePc i → t.pc = s.pc) ∧
    (t.keyIn, t.randIn, t.diagUnrecognized, t.inputs, t.cycleNo) =
      (s.keyIn, s.randIn, s.diagUnrecognized, s.inputs, s.cycleNo)

/-- A halt comes only from a stack bound: a step from a core that is not halted halts it exactly when it runs CALL with
a full stack or RET with an empty one (60_exceptions.md, Halt entry and return; decisions D5, D18). -/
def Obligations.OnlyStackBoundsHalt : Prop :=
  ∀ s t : State, s.isHalted = false → step s = .next t →
    (t.isHalted = true ↔ s.mode = .running ∧
      ((s.SP = 16 ∧ ∃ nnn, decodeWord s.fetchWord = .instr (.call nnn)) ∨
        (s.SP = 0 ∧ decodeWord s.fetchWord = .instr .ret)))
end

