-- ==== Sys2Proof/Laws/Decode.lean ====
section
/-! SUPPORT. Fields and match bits of packed words (30_encoding.md R71, R85), and the bytes of a word (20_memory.md R53). -/

namespace Sys2Proof

theorem wordOfBytes_eq_append (hi lo : Byte) : wordOfBytes hi lo = hi ++ lo := by
  apply BitVec.eq_of_toNat_eq
  have := hi.isLt
  have := lo.isLt
  rw [wordOfBytes, BitVec.toNat_ofNat, BitVec.toNat_append, Nat.mod_eq_of_lt (by omega), Nat.mul_comm,
    ← Nat.shiftLeft_add_eq_or_of_lt lo.isLt, Nat.shiftLeft_eq, Nat.mul_comm]

/-- The bytes a word is stored as give the word back (20_memory.md R53). -/
theorem wordOfBytes_highByte_lowByte (w : Word) : wordOfBytes (highByte w) (lowByte w) = w := by
  rw [wordOfBytes_eq_append]
  ext j hj
  simp only [BitVec.getElem_append]
  split
  · simp [lowByte, BitVec.getLsbD_eq_getElem hj]
  · simp [highByte, show 8 + (j - 8) = j by omega, BitVec.getLsbD_eq_getElem hj]

/-! ### The match bits: a field covers none of them -/

theorem reg_toWord (x : Reg) : BitVec.ofNat 16 x.val = (BitVec.ofFin (w := 4) x).setWidth 16 := by
  revert x; decide

theorem packX_eq (v : Word) (x : Reg) : packX v x = v ||| ((BitVec.ofFin (w := 4) x).setWidth 16 <<< 8) := by
  rw [packX, reg_toWord]

/-- A field shifted into place lies outside a mask that is clear there. -/
theorem regField_and (x : Reg) (m : Word) (h : m &&& 0x0F00#16 = 0#16) :
    ((BitVec.ofFin (w := 4) x).setWidth 16 <<< 8) &&& m = 0#16 := by
  have hx : ((BitVec.ofFin (w := 4) x).setWidth 16 <<< 8) = ((BitVec.ofFin (w := 4) x).setWidth 16 <<< 8) &&& 0x0F00#16 := by
    revert x; decide
  rw [hx, BitVec.and_assoc, BitVec.and_comm 0x0F00#16 m, h, BitVec.and_zero]

theorem regFieldY_and (y : Reg) (m : Word) (h : m &&& 0x00F0#16 = 0#16) : (BitVec.ofNat 16 y.val <<< 4) &&& m = 0#16 := by
  have hy : BitVec.ofNat 16 y.val <<< 4 = (BitVec.ofNat 16 y.val <<< 4) &&& 0x00F0#16 := by
    revert y; decide
  rw [hy, BitVec.and_assoc, BitVec.and_comm 0x00F0#16 m, h, BitVec.and_zero]

theorem addr_and (a : Addr12) : a.setWidth 16 &&& 0xF000#16 = 0#16 := by
  ext j hj
  interval_cases j <;> simp [BitVec.getLsbD_of_ge]

theorem byte_and (b : Byte) : b.setWidth 16 &&& 0xF000#16 = 0#16 := by
  ext j hj
  interval_cases j <;> simp [BitVec.getLsbD_of_ge]

theorem nibble_and (n : Nibble) : n.setWidth 16 &&& 0xF000#16 = 0#16 := by
  ext j hj
  interval_cases j <;> simp [BitVec.getLsbD_of_ge]

theorem packA_match (v : Word) (a : Addr12) : packA v a &&& 0xF000 = v &&& 0xF000 := by
  rw [packA, BitVec.and_or_distrib_right]
  simp [addr_and]

theorem packX_match (v m : Word) (x : Reg) (h : m &&& 0x0F00#16 = 0#16) : packX v x &&& m = v &&& m := by
  rw [packX_eq, BitVec.and_or_distrib_right, regField_and x m h, BitVec.or_zero]

theorem packXNN_match (v : Word) (x : Reg) (b : Byte) : packXNN v x b &&& 0xF000 = v &&& 0xF000 := by
  rw [packXNN, BitVec.and_or_distrib_right, packX_match v _ x (by decide)]
  simp [byte_and]

/-- Format XY: the low nibble belongs to the match. -/
theorem packXY_match (v : Word) (x y : Reg) : packXYN v x y 0 &&& 0xF00F = v &&& 0xF00F := by
  rw [packXYN, BitVec.and_or_distrib_right, BitVec.and_or_distrib_right, packX_match v _ x (by decide),
    regFieldY_and y _ (by decide)]
  simp

/-- Format XYN: the low nibble is an operand. -/
theorem packXYN_match (v : Word) (x y : Reg) (n : Nibble) : packXYN v x y n &&& 0xF000 = v &&& 0xF000 := by
  rw [packXYN, BitVec.and_or_distrib_right, BitVec.and_or_distrib_right, packX_match v _ x (by decide),
    regFieldY_and y _ (by decide)]
  simp [nibble_and]

/-! ### The fields: what was packed comes back -/

theorem fieldNNN_packA (v : Word) (a : Addr12) (h : v.extractLsb' 0 12 = 0#12) : fieldNNN (packA v a) = a := by
  have : fieldNNN (packA v a) = v.extractLsb' 0 12 ||| a := by
    unfold fieldNNN packA
    ext j hj
    simp [hj, show j < 16 by omega]
  rw [this, h, BitVec.zero_or]

theorem extractX_packX (v : Word) (x : Reg) : (packX v x).extractLsb' 8 4 = v.extractLsb' 8 4 ||| BitVec.ofFin x := by
  rw [packX_eq]
  ext j hj
  simp [show 8 + j < 16 by omega]

theorem fieldX_packX (v : Word) (x : Reg) (h : v.extractLsb' 8 4 = 0#4) : fieldX (packX v x) = x := by
  rw [fieldX, extractX_packX, h, BitVec.zero_or]

theorem fieldX_packXNN (v : Word) (x : Reg) (b : Byte) (h : v.extractLsb' 8 4 = 0#4) : fieldX (packXNN v x b) = x := by
  have : (packXNN v x b).extractLsb' 8 4 = (packX v x).extractLsb' 8 4 := by
    ext j hj
    simp [packXNN]
  rw [fieldX, this, extractX_packX, h, BitVec.zero_or]

theorem fieldNN_packXNN (v : Word) (x : Reg) (b : Byte) (h : v.extractLsb' 0 8 = 0#8) : fieldNN (packXNN v x b) = b := by
  have : fieldNN (packXNN v x b) = v.extractLsb' 0 8 ||| b := by
    unfold fieldNN packXNN packX
    ext j hj
    simp [hj, show j < 16 by omega]
  rw [this, h, BitVec.zero_or]

theorem fieldX_packXYN (v : Word) (x y : Reg) (n : Nibble) (h : v.extractLsb' 8 4 = 0#4) :
    fieldX (packXYN v x y n) = x := by
  have hy : (BitVec.ofNat 16 y.val <<< 4).extractLsb' 8 4 = 0#4 := by revert y; decide
  have : (packXYN v x y n).extractLsb' 8 4 =
      (packX v x).extractLsb' 8 4 ||| (BitVec.ofNat 16 y.val <<< 4).extractLsb' 8 4 := by
    ext j hj
    simp [packXYN, BitVec.getLsbD_of_ge n (8 + j) (by omega)]
  rw [fieldX, this, hy, extractX_packX, h, BitVec.zero_or, BitVec.or_zero]

theorem fieldY_packXYN (v : Word) (x y : Reg) (n : Nibble) (h : v.extractLsb' 4 4 = 0#4) :
    fieldY (packXYN v x y n) = y := by
  have hx : (BitVec.ofNat 16 x.val <<< 8).extractLsb' 4 4 = 0#4 := by revert x; decide
  have hy : (BitVec.ofNat 16 y.val <<< 4).extractLsb' 4 4 = BitVec.ofFin y := by revert y; decide
  have : (packXYN v x y n).extractLsb' 4 4 =
      v.extractLsb' 4 4 ||| (BitVec.ofNat 16 x.val <<< 8).extractLsb' 4 4 ||| (BitVec.ofNat 16 y.val <<< 4).extractLsb' 4 4 := by
    ext j hj
    simp [packXYN, packX]
  rw [fieldY, this, hx, hy, h, BitVec.zero_or, BitVec.zero_or]

theorem fieldN_packXYN (v : Word) (x y : Reg) (n : Nibble) (h : v.extractLsb' 0 4 = 0#4) :
    fieldN (packXYN v x y n) = n := by
  have : fieldN (packXYN v x y n) = v.extractLsb' 0 4 ||| n := by
    unfold fieldN packXYN packX
    ext j hj
    simp [hj, show j < 16 by omega, show j < 8 by omega]
  rw [this, h, BitVec.zero_or]

/-! ### Dispatch: which table answers (30_encoding.md R75, R80) -/

theorem lookupTable_eq_lookup (w mask : Word) (table : DispatchTable) :
    lookupTable w mask table = (table.lookup (w &&& mask)).map (fun build => build w) := by
  induction table with
  | nil => rfl
  | cons row rest ih =>
    obtain ⟨v, build⟩ := row
    by_cases h : w &&& mask = v
    · subst h
      simp [lookupTable, List.lookup]
    · have hb : (w &&& mask == v) = false := by simpa using h
      simp [lookupTable, List.lookup, h, hb, ih]

/-- A match under a mask decides every smaller mask. -/
theorem and_of_and {w m m' v : Word} (h : w &&& m = v) (hm : m &&& m' = m') : w &&& m' = v &&& m' := by
  rw [← h, BitVec.and_assoc, hm]

theorem lookupT1_miss {w : Word} (h : w &&& 0xF000 ≠ 0) : lookupTable w 0xFFFF tableT1 = none := by
  have hw : w &&& 0xFFFF = w := by
    rw [show (0xFFFF : Word) = BitVec.allOnes 16 from rfl, BitVec.and_allOnes]
  have h1 : w ≠ 0x00E0 := by rintro rfl; exact h (by decide)
  have h2 : w ≠ 0x00EE := by rintro rfl; exact h (by decide)
  simp only [lookupTable, tableT1]
  rw [hw, if_neg h1, if_neg h2]

theorem decodeWord_T2 {w v : Word} {build : Word → Instr} (h : w &&& 0xF000 = v) (hv : v ≠ 0)
    (hl : tableT2.lookup v = some build) : decodeWord w = .instr (build w) := by
  simp only [decodeWord, dispatchTables, lookupTables, lookupT1_miss (h ▸ hv)]
  rw [lookupTable_eq_lookup, h, hl]
  rfl

theorem decodeWord_T3 {w v : Word} {build : Word → Instr} (h : w &&& 0xF00F = v) (hv : v &&& 0xF000 ≠ 0)
    (h2 : (tableT2.lookup (v &&& 0xF000)).isNone = true) (hl : tableT3.lookup v = some build) :
    decodeWord w = .instr (build w) := by
  have h' : w &&& 0xF000 = v &&& 0xF000 := and_of_and h (by decide)
  simp only [decodeWord, dispatchTables, lookupTables, lookupT1_miss (h' ▸ hv)]
  rw [lookupTable_eq_lookup, h', Option.isNone_iff_eq_none.mp h2, lookupTable_eq_lookup, h, hl]
  rfl

theorem decodeWord_T4 {w v : Word} {build : Word → Instr} (h : w &&& 0xF0FF = v) (hv : v &&& 0xF000 ≠ 0)
    (h2 : (tableT2.lookup (v &&& 0xF000)).isNone = true) (h3 : (tableT3.lookup (v &&& 0xF00F)).isNone = true)
    (hl : tableT4.lookup v = some build) : decodeWord w = .instr (build w) := by
  have h' : w &&& 0xF000 = v &&& 0xF000 := and_of_and h (by decide)
  have h'' : w &&& 0xF00F = v &&& 0xF00F := and_of_and h (by decide)
  simp only [decodeWord, dispatchTables, lookupTables, lookupT1_miss (h' ▸ hv)]
  rw [lookupTable_eq_lookup, h', Option.isNone_iff_eq_none.mp h2, lookupTable_eq_lookup, h'',
    Option.isNone_iff_eq_none.mp h3, lookupTable_eq_lookup, h, hl]
  rfl

/-- Conversely: a table that answers holds a row that matches. -/
theorem lookupTable_some {w mask : Word} {table : DispatchTable} {i : Instr} (h : lookupTable w mask table = some i) :
    ∃ row ∈ table, w &&& mask = row.1 ∧ i = row.2 w := by
  induction table with
  | nil => cases h
  | cons row rest ih =>
    obtain ⟨v, build⟩ := row
    simp only [lookupTable] at h
    split at h
    · rename_i hv
      cases h
      exact ⟨_, List.mem_cons_self, hv, rfl⟩
    · obtain ⟨r, hr, h1, h2⟩ := ih h
      exact ⟨r, List.mem_cons_of_mem _ hr, h1, h2⟩

theorem lookupTables_some {w : Word} {tables : List (Word × DispatchTable)} {i : Instr}
    (h : lookupTables w tables = some i) : ∃ t ∈ tables, lookupTable w t.1 t.2 = some i := by
  induction tables with
  | nil => cases h
  | cons t rest ih =>
    obtain ⟨mask, table⟩ := t
    simp only [lookupTables] at h
    split at h
    · rename_i j hj
      cases h
      exact ⟨_, List.mem_cons_self, hj⟩
    · obtain ⟨r, hr, h1⟩ := ih h
      exact ⟨r, List.mem_cons_of_mem _ hr, h1⟩

/-- The decoder's two answers, and what each says of the tables. -/
theorem decodeWord_eq_instr {w : Word} {i : Instr} : decodeWord w = .instr i ↔ lookupTables w dispatchTables = some i := by
  unfold decodeWord
  split <;> simp_all

theorem decodeWord_eq_unrecognized {w v : Word} :
    decodeWord w = .unrecognized v ↔ w = v ∧ lookupTables w dispatchTables = none := by
  unfold decodeWord
  split <;> simp_all

/-! ### A word is its match bits and its fields -/

theorem ofFin_fieldX (w : Word) : BitVec.ofFin (w := 4) (fieldX w) = w.extractLsb' 8 4 := rfl
theorem ofFin_fieldY (w : Word) : BitVec.ofFin (w := 4) (fieldY w) = w.extractLsb' 4 4 := rfl

theorem packA_fields (w : Word) : packA (w &&& 0xF000) (fieldNNN w) = w := by
  unfold packA fieldNNN
  ext j hj
  interval_cases j <;> simp

theorem packX_fields (w : Word) : packX (w &&& 0xF0FF) (fieldX w) = w := by
  rw [packX_eq, ofFin_fieldX]
  ext j hj
  interval_cases j <;> simp

theorem packXNN_fields (w : Word) : packXNN (w &&& 0xF000) (fieldX w) (fieldNN w) = w := by
  rw [packXNN, packX_eq, ofFin_fieldX, fieldNN]
  ext j hj
  interval_cases j <;> simp

theorem packXY_fields (w : Word) : packXYN (w &&& 0xF00F) (fieldX w) (fieldY w) 0 = w := by
  rw [packXYN, packX_eq, reg_toWord, ofFin_fieldX, ofFin_fieldY]
  ext j hj
  interval_cases j <;> simp

theorem packXYN_fields (w : Word) : packXYN (w &&& 0xF000) (fieldX w) (fieldY w) (fieldN w) = w := by
  rw [packXYN, packX_eq, reg_toWord, ofFin_fieldX, ofFin_fieldY, fieldN]
  ext j hj
  interval_cases j <;> simp

end Sys2Proof
end

