-- ==== Sys2Proof/Laws/State.lean ====
section
/-! SUPPORT. One lemma per field per update of the state, so that no proof unfolds a record update. -/

namespace Sys2Proof.Machine

variable (s : State)

@[simp] theorem State.setV_V (i : Reg) (v : Byte) : (s.setV i v).V = s.V.set i v := rfl
@[simp] theorem State.setV_I (i : Reg) (v : Byte) : (s.setV i v).I = s.I := rfl
@[simp] theorem State.setV_pc (i : Reg) (v : Byte) : (s.setV i v).pc = s.pc := rfl
@[simp] theorem State.setV_SP (i : Reg) (v : Byte) : (s.setV i v).SP = s.SP := rfl
@[simp] theorem State.setV_stack (i : Reg) (v : Byte) : (s.setV i v).stack = s.stack := rfl
@[simp] theorem State.setV_DT (i : Reg) (v : Byte) : (s.setV i v).DT = s.DT := rfl
@[simp] theorem State.setV_ST (i : Reg) (v : Byte) : (s.setV i v).ST = s.ST := rfl
@[simp] theorem State.setV_mem (i : Reg) (v : Byte) : (s.setV i v).mem = s.mem := rfl
@[simp] theorem State.setV_disp (i : Reg) (v : Byte) : (s.setV i v).disp = s.disp := rfl
@[simp] theorem State.setV_mode (i : Reg) (v : Byte) : (s.setV i v).mode = s.mode := rfl
@[simp] theorem State.setV_keyIn (i : Reg) (v : Byte) : (s.setV i v).keyIn = s.keyIn := rfl
@[simp] theorem State.setV_randIn (i : Reg) (v : Byte) : (s.setV i v).randIn = s.randIn := rfl
@[simp] theorem State.setV_diagUnrecognized (i : Reg) (v : Byte) : (s.setV i v).diagUnrecognized = s.diagUnrecognized := rfl
@[simp] theorem State.setV_inputs (i : Reg) (v : Byte) : (s.setV i v).inputs = s.inputs := rfl
@[simp] theorem State.setV_cycleNo (i : Reg) (v : Byte) : (s.setV i v).cycleNo = s.cycleNo := rfl

@[simp] theorem State.setI_V (v : Word) : (s.setI v).V = s.V := rfl
@[simp] theorem State.setI_I (v : Word) : (s.setI v).I = v := rfl
@[simp] theorem State.setI_pc (v : Word) : (s.setI v).pc = s.pc := rfl
@[simp] theorem State.setI_SP (v : Word) : (s.setI v).SP = s.SP := rfl
@[simp] theorem State.setI_stack (v : Word) : (s.setI v).stack = s.stack := rfl
@[simp] theorem State.setI_DT (v : Word) : (s.setI v).DT = s.DT := rfl
@[simp] theorem State.setI_ST (v : Word) : (s.setI v).ST = s.ST := rfl
@[simp] theorem State.setI_mem (v : Word) : (s.setI v).mem = s.mem := rfl
@[simp] theorem State.setI_disp (v : Word) : (s.setI v).disp = s.disp := rfl
@[simp] theorem State.setI_mode (v : Word) : (s.setI v).mode = s.mode := rfl
@[simp] theorem State.setI_keyIn (v : Word) : (s.setI v).keyIn = s.keyIn := rfl
@[simp] theorem State.setI_randIn (v : Word) : (s.setI v).randIn = s.randIn := rfl
@[simp] theorem State.setI_diagUnrecognized (v : Word) : (s.setI v).diagUnrecognized = s.diagUnrecognized := rfl
@[simp] theorem State.setI_inputs (v : Word) : (s.setI v).inputs = s.inputs := rfl
@[simp] theorem State.setI_cycleNo (v : Word) : (s.setI v).cycleNo = s.cycleNo := rfl

@[simp] theorem State.setPc_V (v : Word) : (s.setPc v).V = s.V := rfl
@[simp] theorem State.setPc_I (v : Word) : (s.setPc v).I = s.I := rfl
@[simp] theorem State.setPc_pc (v : Word) : (s.setPc v).pc = v := rfl
@[simp] theorem State.setPc_SP (v : Word) : (s.setPc v).SP = s.SP := rfl
@[simp] theorem State.setPc_stack (v : Word) : (s.setPc v).stack = s.stack := rfl
@[simp] theorem State.setPc_DT (v : Word) : (s.setPc v).DT = s.DT := rfl
@[simp] theorem State.setPc_ST (v : Word) : (s.setPc v).ST = s.ST := rfl
@[simp] theorem State.setPc_mem (v : Word) : (s.setPc v).mem = s.mem := rfl
@[simp] theorem State.setPc_disp (v : Word) : (s.setPc v).disp = s.disp := rfl
@[simp] theorem State.setPc_mode (v : Word) : (s.setPc v).mode = s.mode := rfl
@[simp] theorem State.setPc_keyIn (v : Word) : (s.setPc v).keyIn = s.keyIn := rfl
@[simp] theorem State.setPc_randIn (v : Word) : (s.setPc v).randIn = s.randIn := rfl
@[simp] theorem State.setPc_diagUnrecognized (v : Word) : (s.setPc v).diagUnrecognized = s.diagUnrecognized := rfl
@[simp] theorem State.setPc_inputs (v : Word) : (s.setPc v).inputs = s.inputs := rfl
@[simp] theorem State.setPc_cycleNo (v : Word) : (s.setPc v).cycleNo = s.cycleNo := rfl

@[simp] theorem State.setDT_V (v : Byte) : (s.setDT v).V = s.V := rfl
@[simp] theorem State.setDT_I (v : Byte) : (s.setDT v).I = s.I := rfl
@[simp] theorem State.setDT_pc (v : Byte) : (s.setDT v).pc = s.pc := rfl
@[simp] theorem State.setDT_SP (v : Byte) : (s.setDT v).SP = s.SP := rfl
@[simp] theorem State.setDT_stack (v : Byte) : (s.setDT v).stack = s.stack := rfl
@[simp] theorem State.setDT_DT (v : Byte) : (s.setDT v).DT = v := rfl
@[simp] theorem State.setDT_ST (v : Byte) : (s.setDT v).ST = s.ST := rfl
@[simp] theorem State.setDT_mem (v : Byte) : (s.setDT v).mem = s.mem := rfl
@[simp] theorem State.setDT_disp (v : Byte) : (s.setDT v).disp = s.disp := rfl
@[simp] theorem State.setDT_mode (v : Byte) : (s.setDT v).mode = s.mode := rfl
@[simp] theorem State.setDT_keyIn (v : Byte) : (s.setDT v).keyIn = s.keyIn := rfl
@[simp] theorem State.setDT_randIn (v : Byte) : (s.setDT v).randIn = s.randIn := rfl
@[simp] theorem State.setDT_diagUnrecognized (v : Byte) : (s.setDT v).diagUnrecognized = s.diagUnrecognized := rfl
@[simp] theorem State.setDT_inputs (v : Byte) : (s.setDT v).inputs = s.inputs := rfl
@[simp] theorem State.setDT_cycleNo (v : Byte) : (s.setDT v).cycleNo = s.cycleNo := rfl

@[simp] theorem State.setST_V (v : Byte) : (s.setST v).V = s.V := rfl
@[simp] theorem State.setST_I (v : Byte) : (s.setST v).I = s.I := rfl
@[simp] theorem State.setST_pc (v : Byte) : (s.setST v).pc = s.pc := rfl
@[simp] theorem State.setST_SP (v : Byte) : (s.setST v).SP = s.SP := rfl
@[simp] theorem State.setST_stack (v : Byte) : (s.setST v).stack = s.stack := rfl
@[simp] theorem State.setST_DT (v : Byte) : (s.setST v).DT = s.DT := rfl
@[simp] theorem State.setST_ST (v : Byte) : (s.setST v).ST = v := rfl
@[simp] theorem State.setST_mem (v : Byte) : (s.setST v).mem = s.mem := rfl
@[simp] theorem State.setST_disp (v : Byte) : (s.setST v).disp = s.disp := rfl
@[simp] theorem State.setST_mode (v : Byte) : (s.setST v).mode = s.mode := rfl
@[simp] theorem State.setST_keyIn (v : Byte) : (s.setST v).keyIn = s.keyIn := rfl
@[simp] theorem State.setST_randIn (v : Byte) : (s.setST v).randIn = s.randIn := rfl
@[simp] theorem State.setST_diagUnrecognized (v : Byte) : (s.setST v).diagUnrecognized = s.diagUnrecognized := rfl
@[simp] theorem State.setST_inputs (v : Byte) : (s.setST v).inputs = s.inputs := rfl
@[simp] theorem State.setST_cycleNo (v : Byte) : (s.setST v).cycleNo = s.cycleNo := rfl

@[simp] theorem State.setMode_V (m : Mode) : (s.setMode m).V = s.V := rfl
@[simp] theorem State.setMode_I (m : Mode) : (s.setMode m).I = s.I := rfl
@[simp] theorem State.setMode_pc (m : Mode) : (s.setMode m).pc = s.pc := rfl
@[simp] theorem State.setMode_SP (m : Mode) : (s.setMode m).SP = s.SP := rfl
@[simp] theorem State.setMode_stack (m : Mode) : (s.setMode m).stack = s.stack := rfl
@[simp] theorem State.setMode_DT (m : Mode) : (s.setMode m).DT = s.DT := rfl
@[simp] theorem State.setMode_ST (m : Mode) : (s.setMode m).ST = s.ST := rfl
@[simp] theorem State.setMode_mem (m : Mode) : (s.setMode m).mem = s.mem := rfl
@[simp] theorem State.setMode_disp (m : Mode) : (s.setMode m).disp = s.disp := rfl
@[simp] theorem State.setMode_mode (m : Mode) : (s.setMode m).mode = m := rfl
@[simp] theorem State.setMode_keyIn (m : Mode) : (s.setMode m).keyIn = s.keyIn := rfl
@[simp] theorem State.setMode_randIn (m : Mode) : (s.setMode m).randIn = s.randIn := rfl
@[simp] theorem State.setMode_diagUnrecognized (m : Mode) : (s.setMode m).diagUnrecognized = s.diagUnrecognized := rfl
@[simp] theorem State.setMode_inputs (m : Mode) : (s.setMode m).inputs = s.inputs := rfl
@[simp] theorem State.setMode_cycleNo (m : Mode) : (s.setMode m).cycleNo = s.cycleNo := rfl

@[simp] theorem State.setDisp_V (d : Display) : (s.setDisp d).V = s.V := rfl
@[simp] theorem State.setDisp_I (d : Display) : (s.setDisp d).I = s.I := rfl
@[simp] theorem State.setDisp_pc (d : Display) : (s.setDisp d).pc = s.pc := rfl
@[simp] theorem State.setDisp_SP (d : Display) : (s.setDisp d).SP = s.SP := rfl
@[simp] theorem State.setDisp_stack (d : Display) : (s.setDisp d).stack = s.stack := rfl
@[simp] theorem State.setDisp_DT (d : Display) : (s.setDisp d).DT = s.DT := rfl
@[simp] theorem State.setDisp_ST (d : Display) : (s.setDisp d).ST = s.ST := rfl
@[simp] theorem State.setDisp_mem (d : Display) : (s.setDisp d).mem = s.mem := rfl
@[simp] theorem State.setDisp_disp (d : Display) : (s.setDisp d).disp = d := rfl
@[simp] theorem State.setDisp_mode (d : Display) : (s.setDisp d).mode = s.mode := rfl
@[simp] theorem State.setDisp_keyIn (d : Display) : (s.setDisp d).keyIn = s.keyIn := rfl
@[simp] theorem State.setDisp_randIn (d : Display) : (s.setDisp d).randIn = s.randIn := rfl
@[simp] theorem State.setDisp_diagUnrecognized (d : Display) : (s.setDisp d).diagUnrecognized = s.diagUnrecognized := rfl
@[simp] theorem State.setDisp_inputs (d : Display) : (s.setDisp d).inputs = s.inputs := rfl
@[simp] theorem State.setDisp_cycleNo (d : Display) : (s.setDisp d).cycleNo = s.cycleNo := rfl

@[simp] theorem State.setDiag_V (b : Bool) : (s.setDiag b).V = s.V := rfl
@[simp] theorem State.setDiag_I (b : Bool) : (s.setDiag b).I = s.I := rfl
@[simp] theorem State.setDiag_pc (b : Bool) : (s.setDiag b).pc = s.pc := rfl
@[simp] theorem State.setDiag_SP (b : Bool) : (s.setDiag b).SP = s.SP := rfl
@[simp] theorem State.setDiag_stack (b : Bool) : (s.setDiag b).stack = s.stack := rfl
@[simp] theorem State.setDiag_DT (b : Bool) : (s.setDiag b).DT = s.DT := rfl
@[simp] theorem State.setDiag_ST (b : Bool) : (s.setDiag b).ST = s.ST := rfl
@[simp] theorem State.setDiag_mem (b : Bool) : (s.setDiag b).mem = s.mem := rfl
@[simp] theorem State.setDiag_disp (b : Bool) : (s.setDiag b).disp = s.disp := rfl
@[simp] theorem State.setDiag_mode (b : Bool) : (s.setDiag b).mode = s.mode := rfl
@[simp] theorem State.setDiag_keyIn (b : Bool) : (s.setDiag b).keyIn = s.keyIn := rfl
@[simp] theorem State.setDiag_randIn (b : Bool) : (s.setDiag b).randIn = s.randIn := rfl
@[simp] theorem State.setDiag_diagUnrecognized (b : Bool) : (s.setDiag b).diagUnrecognized = b := rfl
@[simp] theorem State.setDiag_inputs (b : Bool) : (s.setDiag b).inputs = s.inputs := rfl
@[simp] theorem State.setDiag_cycleNo (b : Bool) : (s.setDiag b).cycleNo = s.cycleNo := rfl

@[simp] theorem State.memWrite_V (a : Nat) (v : Byte) : (s.memWrite a v).V = s.V := rfl
@[simp] theorem State.memWrite_I (a : Nat) (v : Byte) : (s.memWrite a v).I = s.I := rfl
@[simp] theorem State.memWrite_pc (a : Nat) (v : Byte) : (s.memWrite a v).pc = s.pc := rfl
@[simp] theorem State.memWrite_SP (a : Nat) (v : Byte) : (s.memWrite a v).SP = s.SP := rfl
@[simp] theorem State.memWrite_stack (a : Nat) (v : Byte) : (s.memWrite a v).stack = s.stack := rfl
@[simp] theorem State.memWrite_DT (a : Nat) (v : Byte) : (s.memWrite a v).DT = s.DT := rfl
@[simp] theorem State.memWrite_ST (a : Nat) (v : Byte) : (s.memWrite a v).ST = s.ST := rfl
@[simp] theorem State.memWrite_mem (a : Nat) (v : Byte) : (s.memWrite a v).mem = Memory.write s.mem (a % Config.memSize) v := rfl
@[simp] theorem State.memWrite_disp (a : Nat) (v : Byte) : (s.memWrite a v).disp = s.disp := rfl
@[simp] theorem State.memWrite_mode (a : Nat) (v : Byte) : (s.memWrite a v).mode = s.mode := rfl
@[simp] theorem State.memWrite_keyIn (a : Nat) (v : Byte) : (s.memWrite a v).keyIn = s.keyIn := rfl
@[simp] theorem State.memWrite_randIn (a : Nat) (v : Byte) : (s.memWrite a v).randIn = s.randIn := rfl
@[simp] theorem State.memWrite_diagUnrecognized (a : Nat) (v : Byte) : (s.memWrite a v).diagUnrecognized = s.diagUnrecognized := rfl
@[simp] theorem State.memWrite_inputs (a : Nat) (v : Byte) : (s.memWrite a v).inputs = s.inputs := rfl
@[simp] theorem State.memWrite_cycleNo (a : Nat) (v : Byte) : (s.memWrite a v).cycleNo = s.cycleNo := rfl

@[simp] theorem State.advancePc_V : (s.advancePc).V = s.V := rfl
@[simp] theorem State.advancePc_I : (s.advancePc).I = s.I := rfl
@[simp] theorem State.advancePc_pc : (s.advancePc).pc = s.pc + 2 := rfl
@[simp] theorem State.advancePc_SP : (s.advancePc).SP = s.SP := rfl
@[simp] theorem State.advancePc_stack : (s.advancePc).stack = s.stack := rfl
@[simp] theorem State.advancePc_DT : (s.advancePc).DT = s.DT := rfl
@[simp] theorem State.advancePc_ST : (s.advancePc).ST = s.ST := rfl
@[simp] theorem State.advancePc_mem : (s.advancePc).mem = s.mem := rfl
@[simp] theorem State.advancePc_disp : (s.advancePc).disp = s.disp := rfl
@[simp] theorem State.advancePc_mode : (s.advancePc).mode = s.mode := rfl
@[simp] theorem State.advancePc_keyIn : (s.advancePc).keyIn = s.keyIn := rfl
@[simp] theorem State.advancePc_randIn : (s.advancePc).randIn = s.randIn := rfl
@[simp] theorem State.advancePc_diagUnrecognized : (s.advancePc).diagUnrecognized = s.diagUnrecognized := rfl
@[simp] theorem State.advancePc_inputs : (s.advancePc).inputs = s.inputs := rfl
@[simp] theorem State.advancePc_cycleNo : (s.advancePc).cycleNo = s.cycleNo := rfl

@[simp] theorem State.skipIf_V (c : Bool) : (s.skipIf c).V = s.V := rfl
@[simp] theorem State.skipIf_I (c : Bool) : (s.skipIf c).I = s.I := rfl
@[simp] theorem State.skipIf_pc (c : Bool) : (s.skipIf c).pc = if c then s.pc + 2 else s.pc := rfl
@[simp] theorem State.skipIf_SP (c : Bool) : (s.skipIf c).SP = s.SP := rfl
@[simp] theorem State.skipIf_stack (c : Bool) : (s.skipIf c).stack = s.stack := rfl
@[simp] theorem State.skipIf_DT (c : Bool) : (s.skipIf c).DT = s.DT := rfl
@[simp] theorem State.skipIf_ST (c : Bool) : (s.skipIf c).ST = s.ST := rfl
@[simp] theorem State.skipIf_mem (c : Bool) : (s.skipIf c).mem = s.mem := rfl
@[simp] theorem State.skipIf_disp (c : Bool) : (s.skipIf c).disp = s.disp := rfl
@[simp] theorem State.skipIf_mode (c : Bool) : (s.skipIf c).mode = s.mode := rfl
@[simp] theorem State.skipIf_keyIn (c : Bool) : (s.skipIf c).keyIn = s.keyIn := rfl
@[simp] theorem State.skipIf_randIn (c : Bool) : (s.skipIf c).randIn = s.randIn := rfl
@[simp] theorem State.skipIf_diagUnrecognized (c : Bool) : (s.skipIf c).diagUnrecognized = s.diagUnrecognized := rfl
@[simp] theorem State.skipIf_inputs (c : Bool) : (s.skipIf c).inputs = s.inputs := rfl
@[simp] theorem State.skipIf_cycleNo (c : Bool) : (s.skipIf c).cycleNo = s.cycleNo := rfl

@[simp] theorem State.setFlagThenV_V (x : Reg) (f v : Byte) : (s.setFlagThenV x f v).V = (s.V.set regVF f).set x v := rfl
@[simp] theorem State.setFlagThenV_I (x : Reg) (f v : Byte) : (s.setFlagThenV x f v).I = s.I := rfl
@[simp] theorem State.setFlagThenV_pc (x : Reg) (f v : Byte) : (s.setFlagThenV x f v).pc = s.pc := rfl
@[simp] theorem State.setFlagThenV_SP (x : Reg) (f v : Byte) : (s.setFlagThenV x f v).SP = s.SP := rfl
@[simp] theorem State.setFlagThenV_stack (x : Reg) (f v : Byte) : (s.setFlagThenV x f v).stack = s.stack := rfl
@[simp] theorem State.setFlagThenV_DT (x : Reg) (f v : Byte) : (s.setFlagThenV x f v).DT = s.DT := rfl
@[simp] theorem State.setFlagThenV_ST (x : Reg) (f v : Byte) : (s.setFlagThenV x f v).ST = s.ST := rfl
@[simp] theorem State.setFlagThenV_mem (x : Reg) (f v : Byte) : (s.setFlagThenV x f v).mem = s.mem := rfl
@[simp] theorem State.setFlagThenV_disp (x : Reg) (f v : Byte) : (s.setFlagThenV x f v).disp = s.disp := rfl
@[simp] theorem State.setFlagThenV_mode (x : Reg) (f v : Byte) : (s.setFlagThenV x f v).mode = s.mode := rfl
@[simp] theorem State.setFlagThenV_keyIn (x : Reg) (f v : Byte) : (s.setFlagThenV x f v).keyIn = s.keyIn := rfl
@[simp] theorem State.setFlagThenV_randIn (x : Reg) (f v : Byte) : (s.setFlagThenV x f v).randIn = s.randIn := rfl
@[simp] theorem State.setFlagThenV_diagUnrecognized (x : Reg) (f v : Byte) : (s.setFlagThenV x f v).diagUnrecognized = s.diagUnrecognized := rfl
@[simp] theorem State.setFlagThenV_inputs (x : Reg) (f v : Byte) : (s.setFlagThenV x f v).inputs = s.inputs := rfl
@[simp] theorem State.setFlagThenV_cycleNo (x : Reg) (f v : Byte) : (s.setFlagThenV x f v).cycleNo = s.cycleNo := rfl

@[simp] theorem State.raiseHalt_V (c : HaltCause) : (s.raiseHalt c).V = s.V := rfl
@[simp] theorem State.raiseHalt_I (c : HaltCause) : (s.raiseHalt c).I = s.I := rfl
@[simp] theorem State.raiseHalt_pc (c : HaltCause) : (s.raiseHalt c).pc = s.pc := rfl
@[simp] theorem State.raiseHalt_SP (c : HaltCause) : (s.raiseHalt c).SP = s.SP := rfl
@[simp] theorem State.raiseHalt_stack (c : HaltCause) : (s.raiseHalt c).stack = s.stack := rfl
@[simp] theorem State.raiseHalt_DT (c : HaltCause) : (s.raiseHalt c).DT = s.DT := rfl
@[simp] theorem State.raiseHalt_ST (c : HaltCause) : (s.raiseHalt c).ST = s.ST := rfl
@[simp] theorem State.raiseHalt_mem (c : HaltCause) : (s.raiseHalt c).mem = s.mem := rfl
@[simp] theorem State.raiseHalt_disp (c : HaltCause) : (s.raiseHalt c).disp = s.disp := rfl
@[simp] theorem State.raiseHalt_mode (c : HaltCause) : (s.raiseHalt c).mode = .halted c (s.pc - 2) := rfl
@[simp] theorem State.raiseHalt_keyIn (c : HaltCause) : (s.raiseHalt c).keyIn = s.keyIn := rfl
@[simp] theorem State.raiseHalt_randIn (c : HaltCause) : (s.raiseHalt c).randIn = s.randIn := rfl
@[simp] theorem State.raiseHalt_diagUnrecognized (c : HaltCause) : (s.raiseHalt c).diagUnrecognized = s.diagUnrecognized := rfl
@[simp] theorem State.raiseHalt_inputs (c : HaltCause) : (s.raiseHalt c).inputs = s.inputs := rfl
@[simp] theorem State.raiseHalt_cycleNo (c : HaltCause) : (s.raiseHalt c).cycleNo = s.cycleNo := rfl

@[simp] theorem State.pushPc_V (h : s.SP.toNat < 16) : (s.pushPc h).V = s.V := rfl
@[simp] theorem State.pushPc_I (h : s.SP.toNat < 16) : (s.pushPc h).I = s.I := rfl
@[simp] theorem State.pushPc_pc (h : s.SP.toNat < 16) : (s.pushPc h).pc = s.pc := rfl
@[simp] theorem State.pushPc_SP (h : s.SP.toNat < 16) : (s.pushPc h).SP = s.SP + 1 := rfl
@[simp] theorem State.pushPc_stack (h : s.SP.toNat < 16) : (s.pushPc h).stack = s.stack.set s.SP.toNat s.pc := rfl
@[simp] theorem State.pushPc_DT (h : s.SP.toNat < 16) : (s.pushPc h).DT = s.DT := rfl
@[simp] theorem State.pushPc_ST (h : s.SP.toNat < 16) : (s.pushPc h).ST = s.ST := rfl
@[simp] theorem State.pushPc_mem (h : s.SP.toNat < 16) : (s.pushPc h).mem = s.mem := rfl
@[simp] theorem State.pushPc_disp (h : s.SP.toNat < 16) : (s.pushPc h).disp = s.disp := rfl
@[simp] theorem State.pushPc_mode (h : s.SP.toNat < 16) : (s.pushPc h).mode = s.mode := rfl
@[simp] theorem State.pushPc_keyIn (h : s.SP.toNat < 16) : (s.pushPc h).keyIn = s.keyIn := rfl
@[simp] theorem State.pushPc_randIn (h : s.SP.toNat < 16) : (s.pushPc h).randIn = s.randIn := rfl
@[simp] theorem State.pushPc_diagUnrecognized (h : s.SP.toNat < 16) : (s.pushPc h).diagUnrecognized = s.diagUnrecognized := rfl
@[simp] theorem State.pushPc_inputs (h : s.SP.toNat < 16) : (s.pushPc h).inputs = s.inputs := rfl
@[simp] theorem State.pushPc_cycleNo (h : s.SP.toNat < 16) : (s.pushPc h).cycleNo = s.cycleNo := rfl

@[simp] theorem State.popPc_V (h : (s.SP - 1).toNat < 16) : (s.popPc h).V = s.V := rfl
@[simp] theorem State.popPc_I (h : (s.SP - 1).toNat < 16) : (s.popPc h).I = s.I := rfl
@[simp] theorem State.popPc_pc (h : (s.SP - 1).toNat < 16) : (s.popPc h).pc = s.stack[(s.SP - 1).toNat] := rfl
@[simp] theorem State.popPc_SP (h : (s.SP - 1).toNat < 16) : (s.popPc h).SP = s.SP - 1 := rfl
@[simp] theorem State.popPc_stack (h : (s.SP - 1).toNat < 16) : (s.popPc h).stack = s.stack := rfl
@[simp] theorem State.popPc_DT (h : (s.SP - 1).toNat < 16) : (s.popPc h).DT = s.DT := rfl
@[simp] theorem State.popPc_ST (h : (s.SP - 1).toNat < 16) : (s.popPc h).ST = s.ST := rfl
@[simp] theorem State.popPc_mem (h : (s.SP - 1).toNat < 16) : (s.popPc h).mem = s.mem := rfl
@[simp] theorem State.popPc_disp (h : (s.SP - 1).toNat < 16) : (s.popPc h).disp = s.disp := rfl
@[simp] theorem State.popPc_mode (h : (s.SP - 1).toNat < 16) : (s.popPc h).mode = s.mode := rfl
@[simp] theorem State.popPc_keyIn (h : (s.SP - 1).toNat < 16) : (s.popPc h).keyIn = s.keyIn := rfl
@[simp] theorem State.popPc_randIn (h : (s.SP - 1).toNat < 16) : (s.popPc h).randIn = s.randIn := rfl
@[simp] theorem State.popPc_diagUnrecognized (h : (s.SP - 1).toNat < 16) : (s.popPc h).diagUnrecognized = s.diagUnrecognized := rfl
@[simp] theorem State.popPc_inputs (h : (s.SP - 1).toNat < 16) : (s.popPc h).inputs = s.inputs := rfl
@[simp] theorem State.popPc_cycleNo (h : (s.SP - 1).toNat < 16) : (s.popPc h).cycleNo = s.cycleNo := rfl

@[simp] theorem State.sampleInput_V : (s.sampleInput).V = s.V := rfl
@[simp] theorem State.sampleInput_I : (s.sampleInput).I = s.I := rfl
@[simp] theorem State.sampleInput_pc : (s.sampleInput).pc = s.pc := rfl
@[simp] theorem State.sampleInput_SP : (s.sampleInput).SP = s.SP := rfl
@[simp] theorem State.sampleInput_stack : (s.sampleInput).stack = s.stack := rfl
@[simp] theorem State.sampleInput_DT : (s.sampleInput).DT = ticks s.nextInput.ticksDT s.DT := rfl
@[simp] theorem State.sampleInput_ST : (s.sampleInput).ST = ticks s.nextInput.ticksST s.ST := rfl
@[simp] theorem State.sampleInput_mem : (s.sampleInput).mem = s.mem := rfl
@[simp] theorem State.sampleInput_disp : (s.sampleInput).disp = s.disp := rfl
@[simp] theorem State.sampleInput_mode : (s.sampleInput).mode = s.mode := rfl
@[simp] theorem State.sampleInput_keyIn : (s.sampleInput).keyIn = s.nextInput.key := rfl
@[simp] theorem State.sampleInput_randIn : (s.sampleInput).randIn = s.nextInput.rand := rfl
@[simp] theorem State.sampleInput_diagUnrecognized : (s.sampleInput).diagUnrecognized = s.diagUnrecognized := rfl
@[simp] theorem State.sampleInput_inputs : (s.sampleInput).inputs = s.inputs.tail := rfl
@[simp] theorem State.sampleInput_cycleNo : (s.sampleInput).cycleNo = s.cycleNo + 1 := rfl

end Sys2Proof.Machine
end

