-- ==== Sys2Proof/Laws/Memory.lean ====
section
/-! SUPPORT. Memory: a read after a write, the canonical form, and equal memories are equal data. -/

namespace Sys2Proof.Machine

theorem Memory.wfFrom_cons {low k : Nat} {b : Byte} {rest : Memory} :
    Memory.wfFrom low ((k, b) :: rest) = true ↔
      low ≤ k ∧ k < Config.memSize ∧ b ≠ Memory.unlisted ∧ Memory.wfFrom (k + 1) rest = true := by
  simp [Memory.wfFrom, and_assoc]

/-- A canonical memory lists nothing below where it starts. -/
theorem Memory.read_below {m : Memory} {low a : Nat} (h : Memory.wfFrom low m = true) (ha : a < low) :
    Memory.read m a = Memory.unlisted := by
  induction m generalizing low with
  | nil => rfl
  | cons c rest ih =>
    obtain ⟨k, b⟩ := c
    obtain ⟨h1, -, -, h4⟩ := Memory.wfFrom_cons.mp h
    have hne : k ≠ a := by omega
    simp [Memory.read, hne, ih h4 (by omega)]

/-- Reading one address after a write. -/
theorem Memory.read_write {m : Memory} {low : Nat} (h : Memory.wfFrom low m = true) (a b : Nat) (v : Byte) :
    Memory.read (Memory.write m a v) b = if b = a then v else Memory.read m b := by
  induction m generalizing low with
  | nil =>
    by_cases hv : v = Memory.unlisted <;> by_cases hb : b = a <;> simp_all [Memory.write, Memory.read]
    exact fun h => absurd h.symm hb
  | cons c rest ih =>
    obtain ⟨k, w⟩ := c
    obtain ⟨h1, -, -, h4⟩ := Memory.wfFrom_cons.mp h
    have below : ∀ {e}, e < k + 1 → Memory.read rest e = Memory.unlisted := fun he => Memory.read_below h4 he
    unfold Memory.write
    split
    · split
      · by_cases hb : b = a
        · subst hb
          have : k ≠ b := by omega
          simp_all [Memory.read, below (show b < k + 1 by omega)]
        · simp [hb]
      · by_cases hb : b = a
        · simp [Memory.read, hb]
        · simp [Memory.read, hb, Ne.symm hb]
    · split
      · rename_i hak
        subst hak
        split
        · by_cases hb : b = a
          · subst hb
            simp_all [below (show b < b + 1 by omega)]
          · simp [Memory.read, hb, Ne.symm hb]
        · by_cases hb : b = a
          · simp [Memory.read, hb]
          · simp [Memory.read, hb, Ne.symm hb]
      · rename_i hak
        by_cases hkb : k = b
        · have : b ≠ a := by omega
          simp [Memory.read, hkb, this]
        · simp [Memory.read, hkb, ih h4]

/-- A write keeps the canonical form. -/
theorem Memory.write_wfFrom {m : Memory} {low a : Nat} {v : Byte} (h : Memory.wfFrom low m = true)
    (hl : low ≤ a) (ha : a < Config.memSize) : Memory.wfFrom low (Memory.write m a v) = true := by
  induction m generalizing low with
  | nil =>
    unfold Memory.write
    split
    · rfl
    · rename_i hv
      exact Memory.wfFrom_cons.mpr ⟨hl, ha, hv, rfl⟩
  | cons c rest ih =>
    obtain ⟨k, w⟩ := c
    obtain ⟨h1, h2, h3, h4⟩ := Memory.wfFrom_cons.mp h
    have rise : ∀ {lo lo' : Nat} {l : Memory}, lo ≤ lo' → Memory.wfFrom lo' l = true → Memory.wfFrom lo l = true := by
      intro lo lo' l hlo hwf
      cases l with
      | nil => rfl
      | cons e l =>
        obtain ⟨g1, g⟩ := Memory.wfFrom_cons.mp hwf
        exact Memory.wfFrom_cons.mpr ⟨by omega, g⟩
    unfold Memory.write
    split
    · split
      · exact h
      · rename_i hk hv
        exact Memory.wfFrom_cons.mpr ⟨hl, ha, hv, Memory.wfFrom_cons.mpr ⟨by omega, h2, h3, h4⟩⟩
    · split
      · rename_i hak
        subst hak
        split
        · exact rise (by omega) h4
        · rename_i hv
          exact Memory.wfFrom_cons.mpr ⟨hl, ha, hv, h4⟩
      · exact Memory.wfFrom_cons.mpr ⟨h1, h2, h3, ih h4 (by omega)⟩

theorem Memory.write_wf {m : Memory} {a : Nat} {v : Byte} (h : Memory.wf m = true) (ha : a < Config.memSize) :
    Memory.wf (Memory.write m a v) = true :=
  Memory.write_wfFrom h (Nat.zero_le a) ha

/-- Two canonical memories that read alike at every address are the same list. -/
theorem Memory.ext_of_read {m n : Memory} {low : Nat} (hm : Memory.wfFrom low m = true)
    (hn : Memory.wfFrom low n = true) (h : ∀ a, Memory.read m a = Memory.read n a) : m = n := by
  induction m generalizing low n with
  | nil =>
    cases n with
    | nil => rfl
    | cons c rest =>
      obtain ⟨k, b⟩ := c
      have := h k
      simp [Memory.read] at this
      exact absurd this.symm (Memory.wfFrom_cons.mp hn).2.2.1
  | cons c m ih =>
    obtain ⟨k, b⟩ := c
    obtain ⟨m1, m2, m3, m4⟩ := Memory.wfFrom_cons.mp hm
    cases n with
    | nil =>
      have := h k
      simp [Memory.read] at this
      exact absurd this m3
    | cons c' n =>
      obtain ⟨k', b'⟩ := c'
      obtain ⟨n1, n2, n3, n4⟩ := Memory.wfFrom_cons.mp hn
      have hkk : k = k' := by
        rcases Nat.lt_trichotomy k k' with hlt | heq | hgt
        · have := h k
          simp [Memory.read, show k' ≠ k by omega, Memory.read_below n4 (show k < k' + 1 by omega)] at this
          exact absurd this m3
        · exact heq
        · have := h k'
          simp [Memory.read, show k ≠ k' by omega, Memory.read_below m4 (show k' < k + 1 by omega)] at this
          exact absurd this.symm n3
      subst hkk
      have hb : b = b' := by simpa [Memory.read] using h k
      subst hb
      rw [ih m4 n4 fun a => ?_]
      by_cases ha : a < k + 1
      · rw [Memory.read_below m4 ha, Memory.read_below n4 ha]
      · simpa [Memory.read, show k ≠ a by omega] using h a

/-! ### `MemRead` and `MemWrite` (20_memory.md R52) -/

theorem State.memRead_congr {s t : State} (h : t.mem = s.mem) (a : Nat) : t.memRead a = s.memRead a := by
  simp [State.memRead, h]

/-- Every access reduces its address mod 4096 (20_memory.md R51). -/
theorem State.memRead_mod (s : State) (a : Nat) : s.memRead (a % 4096) = s.memRead a := by
  simp [State.memRead, Config.memSize]

theorem State.memRead_memWrite {s : State} (h : Memory.wf s.mem = true) (a b : Nat) (v : Byte) :
    (s.memWrite a v).memRead b = if b % 4096 = a % 4096 then v else s.memRead b := by
  simp only [State.memRead, State.memWrite_mem]
  exact Memory.read_write h _ _ v

theorem State.memWrite_wf {s : State} (h : Memory.wf s.mem = true) (a : Nat) (v : Byte) :
    Memory.wf (s.memWrite a v).mem = true :=
  Memory.write_wf h (Nat.mod_lt _ (by decide))

/-! ### Runs of bytes (20_memory.md R56) -/

theorem State.memWriteList_frame (s : State) (a : Nat) (l : List Byte) :
    s.memWriteList a l = { s with mem := (s.memWriteList a l).mem } := by
  induction l generalizing s a with
  | nil => rfl
  | cons v l ih =>
    rw [State.memWriteList, ih]
    rfl

theorem State.memWriteList_wf {s : State} (h : Memory.wf s.mem = true) (a : Nat) (l : List Byte) :
    Memory.wf (s.memWriteList a l).mem = true := by
  induction l generalizing s a with
  | nil => exact h
  | cons v l ih => exact ih (State.memWrite_wf h a v) (a + 1)

/-- Outside the run, memory reads as before. -/
theorem State.memRead_memWriteList_outside {s : State} (h : Memory.wf s.mem = true) {a b : Nat} {l : List Byte}
    (hb : ∀ j, j < l.length → b % 4096 ≠ (a + j) % 4096) : (s.memWriteList a l).memRead b = s.memRead b := by
  induction l generalizing s a with
  | nil => rfl
  | cons v l ih =>
    rw [State.memWriteList, ih (State.memWrite_wf h a v), State.memRead_memWrite h, if_neg]
    · simpa using hb 0 (by simp)
    · intro j hj
      have := hb (j + 1) (by simpa using hj)
      rwa [show a + (j + 1) = a + 1 + j by omega] at this

/-- Inside a run that does not overlap itself, memory reads the byte stored there. -/
theorem State.memRead_memWriteList_inside {s : State} (h : Memory.wf s.mem = true) {a : Nat} {l : List Byte}
    (hl : l.length ≤ 4096) {j : Nat} (hj : j < l.length) : (s.memWriteList a l).memRead (a + j) = l[j] := by
  induction l generalizing s a j with
  | nil => simp at hj
  | cons v l ih =>
    have hw := State.memWrite_wf h a v
    rw [State.memWriteList]
    cases j with
    | zero =>
      rw [State.memRead_memWriteList_outside hw, State.memRead_memWrite h, if_pos (by simp)]
      · rfl
      · intro i hi
        simp only [List.length_cons] at hl
        omega
    | succ j =>
      have := ih hw (a := a + 1) (by simp at hl; omega) (j := j) (by simpa using hj)
      rw [show a + (j + 1) = a + 1 + j by omega, this]
      rfl

/-- The same at any address that reduces to the stored one (20_memory.md R51). -/
theorem State.memRead_memWriteList_at {s : State} (h : Memory.wf s.mem = true) {a b : Nat} {l : List Byte}
    (hl : l.length ≤ 4096) {j : Nat} (hj : j < l.length) (hb : b % 4096 = (a + j) % 4096) :
    (s.memWriteList a l).memRead b = l[j] := by
  rw [← State.memRead_mod, hb, State.memRead_mod, State.memRead_memWriteList_inside h hl hj]

theorem State.memReadList_length (s : State) (a n : Nat) : (s.memReadList a n).length = n := by
  induction n generalizing a with
  | zero => rfl
  | succ n ih => simp [State.memReadList, ih]

theorem State.memReadList_congr {s t : State} (h : t.mem = s.mem) (a n : Nat) :
    t.memReadList a n = s.memReadList a n := by
  induction n generalizing a with
  | zero => rfl
  | succ n ih => simp [State.memReadList, ih, State.memRead_congr h]

theorem State.memReadList_getElem? (s : State) (a n j : Nat) :
    (s.memReadList a n)[j]? = if j < n then some (s.memRead (a + j)) else none := by
  induction n generalizing a j with
  | zero => simp [State.memReadList]
  | succ n ih =>
    cases j with
    | zero => simp [State.memReadList]
    | succ j =>
      simp only [State.memReadList, List.getElem?_cons_succ, ih, Nat.add_lt_add_iff_right]
      rw [show a + 1 + j = a + (j + 1) by omega]

end Sys2Proof.Machine
end

