-- ==== Sys2Proof/Laws/Ops.lean ====
section
/-! SUPPORT. What each shared operation over registers, timers, stack and flags can do, said once. -/

namespace Sys2Proof.Machine

/-! ### General registers -/

@[simp] theorem State.getV_setV_self (s : State) (i : Reg) (v : Byte) : (s.setV i v).getV i = v := by
  simp [State.getV, State.setV]

theorem State.getV_setV_of_ne (s : State) {i j : Reg} (v : Byte) (h : j ≠ i) : (s.setV i v).getV j = s.getV j := by
  have : i.val ≠ j.val := fun e => h (Fin.ext e.symm)
  simp [State.getV, State.setV, this]

theorem State.getV_setV (s : State) (i j : Reg) (v : Byte) :
    (s.setV i v).getV j = if j = i then v else s.getV j := by
  split
  · rename_i h
    subst h
    exact State.getV_setV_self s j v
  · rename_i h
    exact State.getV_setV_of_ne s v h

/-- Writing VF, register 15 (10_state.md R23). -/
theorem State.getV_setV_VF (s : State) (v : Byte) : (s.setV regVF v).getV 15 = v :=
  State.getV_setV_self s regVF v

theorem State.getV_setV_VF_of_ne (s : State) {j : Reg} (v : Byte) (h : j ≠ 15) : (s.setV regVF v).getV j = s.getV j :=
  State.getV_setV_of_ne s v h

/-- A register reads the same in states that hold the same registers. -/
theorem State.getV_congr {s t : State} (h : t.V = s.V) (j : Reg) : t.getV j = s.getV j := by
  simp [State.getV, h]

/-- The flag goes first: with x = F the result stays in VF (40_cycle.md R108). -/
theorem State.getV_setFlagThenV (s : State) (x j : Reg) (flag result : Byte) :
    (s.setFlagThenV x flag result).getV j = if j = x then result else if j = regVF then flag else s.getV j := by
  simp only [State.setFlagThenV, State.getV_setV]

@[simp] theorem State.getV_setI (s : State) (v : Word) (j : Reg) : (s.setI v).getV j = s.getV j := rfl
@[simp] theorem State.getV_setPc (s : State) (v : Word) (j : Reg) : (s.setPc v).getV j = s.getV j := rfl
@[simp] theorem State.getV_setDT (s : State) (v : Byte) (j : Reg) : (s.setDT v).getV j = s.getV j := rfl
@[simp] theorem State.getV_setST (s : State) (v : Byte) (j : Reg) : (s.setST v).getV j = s.getV j := rfl
@[simp] theorem State.getV_setMode (s : State) (m : Mode) (j : Reg) : (s.setMode m).getV j = s.getV j := rfl
@[simp] theorem State.getV_setDisp (s : State) (d : Display) (j : Reg) : (s.setDisp d).getV j = s.getV j := rfl
@[simp] theorem State.getV_setDiag (s : State) (b : Bool) (j : Reg) : (s.setDiag b).getV j = s.getV j := rfl

/-- Two register files that read alike are the same. -/
theorem State.V_ext {s t : State} (h : ∀ j, t.getV j = s.getV j) : t.V = s.V := by
  apply Vector.ext
  intro j hj
  exact h ⟨j, hj⟩

/-- The rows of a sprite depend on memory and I alone (44_display.md R196). -/
theorem spriteRows_congr {s t : State} (hm : t.mem = s.mem) (hi : t.I = s.I) (n : Nibble) :
    spriteRows t n = spriteRows s n := by
  unfold spriteRows
  rw [hi, State.memReadList_congr hm]

/-! ### Register save and load (43_index_memory.md R174, R175) -/

theorem mem_regsUpTo (x i : Reg) : i ∈ regsUpTo x ↔ i ≤ x := by
  simp [regsUpTo]

theorem regsUpTo_eq_take (x : Reg) : regsUpTo x = (List.finRange 16).take (x.val + 1) := by
  revert x; decide

theorem regsUpTo_length (x : Reg) : (regsUpTo x).length = x.val + 1 := by
  revert x; decide

theorem regsUpTo_val : ∀ x : Reg, ∀ j : Fin (regsUpTo x).length, ((regsUpTo x)[j]).val = j.val := by
  decide

theorem regsUpTo_getElem (x : Reg) (j : Nat) (h : j < (regsUpTo x).length) : ((regsUpTo x)[j]).val = j :=
  regsUpTo_val x ⟨j, h⟩

/-- The loop of LD [I],Vx over consecutive registers: I and the registers do not change. -/
theorem State.foldl_store (s : State) (k : Nat) (l : List Reg)
    (hl : ∀ j (h : j < l.length), (l[j]).val = k + j) :
    l.foldl (fun t i => t.memWrite (t.I.toNat + i.val) (t.getV i)) s =
      s.memWriteList (s.I.toNat + k) (l.map s.getV) := by
  induction l generalizing s k with
  | nil => rfl
  | cons i l ih =>
    have hi : i.val = k := hl 0 (Nat.succ_pos _)
    rw [List.foldl_cons, ih _ (k + 1) fun j h => ?_, hi]
    · rfl
    · have := hl (j + 1) (by simpa using h)
      rw [List.getElem_cons_succ] at this
      omega

theorem State.storeRegsAt_eq (s : State) (x : Reg) :
    s.storeRegsAt x = s.memWriteList s.I.toNat ((regsUpTo x).map s.getV) :=
  State.foldl_store s 0 (regsUpTo x) fun j h => by rw [regsUpTo_getElem, Nat.zero_add]

theorem State.storeRegsAt_frame (s : State) (x : Reg) :
    s.storeRegsAt x = { s with mem := (s.storeRegsAt x).mem } := by
  rw [State.storeRegsAt_eq]
  exact State.memWriteList_frame s _ _

theorem State.storeRegsAt_wf {s : State} (h : Memory.wf s.mem = true) (x : Reg) :
    Memory.wf (s.storeRegsAt x).mem = true := by
  rw [State.storeRegsAt_eq]
  exact State.memWriteList_wf h _ _

/-- LD [I],Vx stores V[i] at I + i, for i in 0..x. -/
theorem State.memRead_storeRegsAt {s : State} (h : Memory.wf s.mem = true) {x i : Reg} (hi : i ≤ x) :
    (s.storeRegsAt x).memRead (s.I.toNat + i.val) = s.getV i := by
  have hlen := regsUpTo_length x
  have hj : i.val < ((regsUpTo x).map s.getV).length := by
    rw [List.length_map, hlen]
    exact Nat.lt_succ_of_le hi
  rw [State.storeRegsAt_eq, State.memRead_memWriteList_inside h (by rw [List.length_map, hlen]; omega) hj,
    List.getElem_map]
  exact congrArg s.getV (Fin.ext (regsUpTo_getElem x i.val (by simpa using hj)))

/-- LD [I],Vx stores nowhere else. -/
theorem State.memRead_storeRegsAt_outside {s : State} (h : Memory.wf s.mem = true) {x : Reg} {b : Nat}
    (hb : ∀ i : Reg, i ≤ x → b % 4096 ≠ (s.I.toNat + i.val) % 4096) : (s.storeRegsAt x).memRead b = s.memRead b := by
  rw [State.storeRegsAt_eq]
  refine State.memRead_memWriteList_outside h fun j hj => ?_
  rw [List.length_map, regsUpTo_length] at hj
  exact hb ⟨j, by omega⟩ (by show j ≤ x.val; omega)

/-- The loop of LD Vx,[I] over any list of registers: memory and I do not change, so no read sees a load. -/
theorem State.foldl_load (s : State) (l : List Reg) :
    l.foldl (fun t i => t.setV i (t.memRead (t.I.toNat + i.val))) s =
      { s with V := (l.foldl (fun t i => t.setV i (t.memRead (t.I.toNat + i.val))) s).V } ∧
    ∀ r, (l.foldl (fun t i => t.setV i (t.memRead (t.I.toNat + i.val))) s).getV r =
      if r ∈ l then s.memRead (s.I.toNat + r.val) else s.getV r := by
  induction l generalizing s with
  | nil => exact ⟨rfl, fun r => rfl⟩
  | cons i l ih =>
    obtain ⟨h1, h2⟩ := ih (s.setV i (s.memRead (s.I.toNat + i.val)))
    refine ⟨?_, fun r => ?_⟩
    · rw [List.foldl_cons, h1]
      rfl
    · rw [List.foldl_cons, h2]
      by_cases hr : r = i
      · subst hr
        simp [State.memRead]
      · simp [hr, State.getV_setV, State.memRead]

theorem State.loadRegsAt_frame (s : State) (x : Reg) : s.loadRegsAt x = { s with V := (s.loadRegsAt x).V } :=
  (State.foldl_load s (regsUpTo x)).1

/-- LD Vx,[I] loads V[r] from I + r, for r in 0..x, and no other register. -/
theorem State.getV_loadRegsAt (s : State) (x r : Reg) :
    (s.loadRegsAt x).getV r = if r ≤ x then s.memRead (s.I.toNat + r.val) else s.getV r := by
  rw [State.loadRegsAt, (State.foldl_load s (regsUpTo x)).2]
  simp [mem_regsUpTo]

/-! ### Call stack (41_control_flow.md R121, R122) -/

theorem State.pushPc_stack_get (s : State) (h : s.SP.toNat < 16) (k : Nat) (hk : k < 16) :
    (s.pushPc h).stack[k] = if k = s.SP.toNat then s.pc else s.stack[k] := by
  simp [Vector.getElem_set, eq_comm]

/-! ### Timers (45_timers_keys.md R216) -/

theorem tick_toNat (t : Byte) : (tick t).toNat = t.toNat - 1 := by
  unfold tick
  split
  · rename_i h
    subst h
    rfl
  · bv_omega

/-- Any number of ticks, saturating at 0. -/
theorem ticks_toNat (n : Nat) (t : Byte) : (ticks n t).toNat = t.toNat - n := by
  induction n generalizing t with
  | zero => rfl
  | succ n ih =>
    rw [ticks, ih, tick_toNat]
    omega

/-! ### The coming input (40_cycle.md R100) -/

theorem State.nextInput_cons {s : State} {a : Config.CycleInput} {rest : List Config.CycleInput}
    (h : s.inputs = a :: rest) : s.nextInput = a := by
  simp [State.nextInput, h]

theorem State.nextInput_nil {s : State} (h : s.inputs = []) : s.nextInput = Config.freeInput s.cycleNo := by
  simp [State.nextInput, h]

/-! ### Flags and results (42_alu.md R146-R150) -/

theorem differenceResult_eq (a b : Byte) : differenceResult a b = a - b := by
  unfold differenceResult differenceSum
  bv_omega

/-- The carry of the two's-complement sum is the NOT-borrow (42_alu.md R147). -/
theorem differenceNotBorrow_eq (a b : Byte) : differenceNotBorrow a b = if b ≤ a then 1 else 0 := by
  have ha := a.isLt
  have hb := b.isLt
  have hs : differenceSum a b = a.toNat + 256 - b.toNat := by
    unfold differenceSum
    rw [BitVec.toNat_not]
    omega
  have hbit : (differenceSum a b).testBit 8 = decide (b ≤ a) := by
    rw [hs, Nat.testBit_eq_decide_div_mod_eq]
    by_cases h : b.toNat ≤ a.toNat
    · simp only [BitVec.le_def, h, decide_true, decide_eq_true_eq]
      omega
    · simp only [BitVec.le_def, h, decide_false, decide_eq_false_iff_not]
      omega
  simp [differenceNotBorrow, flagByte, hbit]

theorem sumResult_eq (a b : Byte) : sumResult a b = a + b := by
  unfold sumResult
  bv_omega

end Sys2Proof.Machine
end

