-- ==== Sys2Proof/Laws/Display.lean ====
section
/-! SUPPORT. The display buffer pixel by pixel: what one plot, one row and a whole sprite do (44_display.md R192). -/

namespace Sys2Proof.Machine

theorem Display.pixel_off (x y : Nat) : Display.off.pixel x y = false := by
  unfold Display.pixel Display.off
  split <;> simp

theorem Display.pixel_outside (d : Display) {x y : Nat} (h : ¬(y < 32 ∧ x < 64)) : d.pixel x y = false := by
  simp [Display.pixel, h]

/-- Row-major: pixel (x, y) has linear index y * 64 + x (10_state.md R32). -/
theorem Display.readOut_get (d : Display) {x y : Nat} (hx : x < 64) (hy : y < 32) :
    d.readOut[y * 64 + x] = d.pixel x y := by
  simp only [Display.readOut, Vector.getElem_ofFn]
  rw [show (y * 64 + x) % 64 = x by omega, show (y * 64 + x) / 64 = y by omega]

/-- Two displays that show the same pixels are the same. -/
theorem Display.ext_of_pixel {d e : Display} (h : ∀ x y, x < 64 → y < 32 → d.pixel x y = e.pixel x y) : d = e := by
  apply Vector.ext
  intro y hy
  apply Vector.ext
  intro x hx
  simpa [Display.pixel, hx, hy] using h x y hx hy

theorem plotPixel_pixel (x y : Nat) (acc : Display × Bool) (u v : Nat) :
    (plotPixel x y acc).1.pixel u v =
      (acc.1.pixel u v ^^ decide (u = x ∧ v = y ∧ x < 64 ∧ y < 32)) := by
  unfold plotPixel
  by_cases h : y < 32 ∧ x < 64
  · rw [dif_pos h]
    by_cases hin : v < 32 ∧ u < 64
    · by_cases hv : v = y
      · subst hv
        by_cases hu : u = x
        · subst hu
          simp [Display.pixel, h.1, h.2]
        · simp [Display.pixel, hin.1, hin.2, hu, Ne.symm hu]
      · simp [Display.pixel, hin.1, hin.2, hv, Ne.symm hv]
    · rw [Display.pixel_outside _ hin, Display.pixel_outside _ hin]
      have : ¬(u = x ∧ v = y ∧ x < 64 ∧ y < 32) := by
        rintro ⟨rfl, rfl, -, -⟩
        exact hin h
      simp [this]
  · rw [dif_neg h]
    have : ¬(u = x ∧ v = y ∧ x < 64 ∧ y < 32) := by
      rintro ⟨-, -, hx, hy⟩
      exact h ⟨hy, hx⟩
    simp [this]

theorem plotPixel_collision (x y : Nat) (acc : Display × Bool) :
    (plotPixel x y acc).2 = (acc.2 || acc.1.pixel x y) := by
  unfold plotPixel Display.pixel
  split <;> simp

/-- The plots of one row, over any list of distinct columns. -/
theorem foldl_plot (ox y : Nat) (bit : Nat → Bool) (cols : List Nat) (hn : cols.Nodup) (acc : Display × Bool) :
    (∀ u v, (cols.foldl (fun a c => if bit c then plotPixel (ox + c) y a else a) acc).1.pixel u v =
      (acc.1.pixel u v ^^ decide (v = y ∧ u < 64 ∧ v < 32 ∧ ∃ c ∈ cols, bit c = true ∧ u = ox + c))) ∧
    (cols.foldl (fun a c => if bit c then plotPixel (ox + c) y a else a) acc).2 =
      (acc.2 || cols.any (fun c => bit c && acc.1.pixel (ox + c) y)) := by
  induction cols generalizing acc with
  | nil => simp
  | cons c cols ih =>
    obtain ⟨hc, hn'⟩ := List.nodup_cons.mp hn
    cases hb : bit c with
    | false =>
      obtain ⟨h1, h2⟩ := ih hn' acc
      simp only [List.foldl_cons, hb, Bool.false_eq_true, if_false]
      refine ⟨fun u v => ?_, ?_⟩
      · rw [h1]
        simp [hb]
      · rw [h2]
        simp [hb]
    | true =>
      obtain ⟨h1, h2⟩ := ih hn' (plotPixel (ox + c) y acc)
      simp only [List.foldl_cons, hb, if_true]
      refine ⟨fun u v => ?_, ?_⟩
      · rw [h1, plotPixel_pixel, Bool.xor_assoc]
        congr 1
        by_cases hu : u = ox + c
        · subst hu
          by_cases hv : v = y
          · simp [hv, hb, hc]
          · simp [hv]
        · simp [hu]
      · rw [h2, plotPixel_collision, List.any_cons, hb, Bool.true_and, Bool.or_assoc]
        congr 2
        have hpix : ∀ e ∈ cols, (plotPixel (ox + c) y acc).1.pixel (ox + e) y = acc.1.pixel (ox + e) y := by
          intro e he
          have : e ≠ c := fun h => hc (h ▸ he)
          simp [plotPixel_pixel, this]
        refine Bool.eq_iff_iff.mpr ?_
        simp only [List.any_eq_true, Bool.and_eq_true]
        constructor
        · rintro ⟨e, he, hbe, hp⟩
          exact ⟨e, he, hbe, hpix e he ▸ hp⟩
        · rintro ⟨e, he, hbe, hp⟩
          exact ⟨e, he, hbe, (hpix e he).symm ▸ hp⟩

/-! ### Rows and sprites -/

theorem spriteBit_nil (ox oy u v : Nat) : spriteBit ox oy [] u v = false := rfl

theorem spriteBit_single (ox y : Nat) (row : Byte) (u v : Nat) :
    spriteBit ox y [row] u v = true ↔ v = y ∧ ∃ c ∈ List.range 8, row.getLsbD (7 - c) = true ∧ u = ox + c := by
  unfold spriteBit
  by_cases hv : v ≤ y
  · rw [Nat.sub_eq_zero_of_le hv]
    simp only [List.getElem?_cons_zero, Bool.and_eq_true, decide_eq_true_eq, List.mem_range]
    constructor
    · rintro ⟨⟨h1, h2, h3⟩, h4⟩
      exact ⟨by omega, u - ox, by omega, h4, by omega⟩
    · rintro ⟨rfl, c, hc, hb, rfl⟩
      exact ⟨⟨Nat.le_refl _, by omega, by omega⟩, by rwa [Nat.add_sub_cancel_left]⟩
  · rw [List.getElem?_eq_none (by simp; omega)]
    simp
    omega

theorem spriteBit_cons (ox y : Nat) (row : Byte) (rest : List Byte) (u v : Nat) :
    spriteBit ox y (row :: rest) u v = (spriteBit ox y [row] u v || spriteBit ox (y + 1) rest u v) := by
  unfold spriteBit
  by_cases hv : v ≤ y
  · rw [Nat.sub_eq_zero_of_le hv, Nat.sub_eq_zero_of_le (by omega : v ≤ y + 1)]
    have : ¬ y + 1 ≤ v := by omega
    cases rest <;> simp [this]
  · obtain ⟨k, rfl⟩ : ∃ k, v = y + 1 + k := ⟨v - (y + 1), by omega⟩
    rw [show y + 1 + k - y = k + 1 by omega, show y + 1 + k - (y + 1) = k by omega]
    have : y ≤ y + 1 + k := by omega
    simp [this]

/-- A sprite row lies on one line, so no two rows meet. -/
theorem spriteBit_single_disjoint {ox y : Nat} {row : Byte} {rest : List Byte} {u v : Nat}
    (h : spriteBit ox y [row] u v = true) : spriteBit ox (y + 1) rest u v = false := by
  obtain ⟨rfl, -⟩ := (spriteBit_single ox y row u v).mp h
  unfold spriteBit
  have : ¬ v + 1 ≤ v := by omega
  cases rest[v - (v + 1)]? <;> simp [this]

theorem drawRow_pixel (ox y : Nat) (row : Byte) (acc : Display × Bool) (u v : Nat) :
    (drawRow ox y row acc).1.pixel u v = (acc.1.pixel u v ^^ (decide (u < 64 ∧ v < 32) && spriteBit ox y [row] u v)) := by
  rw [drawRow, (foldl_plot ox y (fun c => row.getLsbD (7 - c)) (List.range 8) List.nodup_range acc).1]
  congr 1
  refine Bool.eq_iff_iff.mpr ?_
  rw [decide_eq_true_eq, Bool.and_eq_true, decide_eq_true_eq, spriteBit_single]
  tauto

theorem drawRow_collision (ox y : Nat) (row : Byte) (acc : Display × Bool) :
    (drawRow ox y row acc).2 = true ↔
      acc.2 = true ∨ ∃ u v, acc.1.pixel u v = true ∧ spriteBit ox y [row] u v = true := by
  rw [drawRow, (foldl_plot ox y (fun c => row.getLsbD (7 - c)) (List.range 8) List.nodup_range acc).2]
  simp only [Bool.or_eq_true, List.any_eq_true, Bool.and_eq_true, spriteBit_single]
  refine or_congr Iff.rfl ⟨?_, ?_⟩
  · rintro ⟨c, hc, hb, hp⟩
    exact ⟨ox + c, y, hp, rfl, c, hc, hb, rfl⟩
  · rintro ⟨u, v, hp, rfl, c, hc, hb, rfl⟩
    exact ⟨c, hc, hb, hp⟩

theorem drawRows_pixel (ox y : Nat) (rows : List Byte) (acc : Display × Bool) (u v : Nat) :
    (drawRows ox y rows acc).1.pixel u v = (acc.1.pixel u v ^^ (decide (u < 64 ∧ v < 32) && spriteBit ox y rows u v)) := by
  induction rows generalizing y acc with
  | nil => simp [drawRows, spriteBit_nil]
  | cons row rest ih =>
    rw [drawRows, ih, drawRow_pixel, spriteBit_cons ox y row rest, Bool.xor_assoc]
    cases h : spriteBit ox y [row] u v with
    | false => simp
    | true => simp [spriteBit_single_disjoint h]

theorem drawRows_collision (ox y : Nat) (rows : List Byte) (acc : Display × Bool) :
    (drawRows ox y rows acc).2 = true ↔
      acc.2 = true ∨ ∃ u v, acc.1.pixel u v = true ∧ spriteBit ox y rows u v = true := by
  induction rows generalizing y acc with
  | nil => simp [drawRows, spriteBit_nil]
  | cons row rest ih =>
    rw [drawRows, ih, drawRow_collision, or_assoc]
    refine or_congr Iff.rfl ⟨?_, ?_⟩
    · rintro (⟨u, v, hp, hb⟩ | ⟨u, v, hp, hb⟩)
      · exact ⟨u, v, hp, by rw [spriteBit_cons, hb, Bool.true_or]⟩
      · have hs : spriteBit ox y [row] u v = false := by
          cases hs : spriteBit ox y [row] u v with
          | false => rfl
          | true => rw [spriteBit_single_disjoint hs] at hb; exact absurd hb (by decide)
        refine ⟨u, v, ?_, by rw [spriteBit_cons, hb, Bool.or_true]⟩
        rwa [drawRow_pixel, hs, Bool.and_false, Bool.xor_false] at hp
    · rintro ⟨u, v, hp, hb⟩
      rw [spriteBit_cons, Bool.or_eq_true] at hb
      rcases hb with hb | hb
      · exact Or.inl ⟨u, v, hp, hb⟩
      · refine Or.inr ⟨u, v, ?_, hb⟩
        have hs : spriteBit ox y [row] u v = false := by
          cases hs : spriteBit ox y [row] u v with
          | false => rfl
          | true => rw [spriteBit_single_disjoint hs] at hb; exact absurd hb (by decide)
        rwa [drawRow_pixel, hs, Bool.and_false, Bool.xor_false]

/-- A whole sprite: every pixel under a set bit flips, every other pixel stays (44_display.md R192). -/
theorem drawSprite_pixel (ox oy : Nat) (rows : List Byte) (d : Display) (u v : Nat) :
    (drawSprite ox oy rows d).1.pixel u v = (d.pixel u v ^^ (decide (u < 64 ∧ v < 32) && spriteBit ox oy rows u v)) :=
  drawRows_pixel ox oy rows (d, false) u v

/-- A whole sprite collides exactly when a set bit lies over a pixel that was on (44_display.md R192). -/
theorem drawSprite_collision (ox oy : Nat) (rows : List Byte) (d : Display) :
    (drawSprite ox oy rows d).2 = true ↔ ∃ u v, d.pixel u v = true ∧ spriteBit ox oy rows u v = true := by
  rw [drawSprite, drawRows_collision]
  simp

end Sys2Proof.Machine
end

