-- ==== Sys2Proof/Laws/PerInstr.lean ====
section
/-! SUPPORT. Per instruction: the match bits of its encoding (30_encoding.md R76-R79, R84; opcode_table.json). -/

namespace Sys2Proof

/-- The mask of the dispatch table that holds a format's instructions (30_encoding.md R75, R84). -/
def Laws.maskOf : Format → Word
  | .none => 0xFFFF
  | .a | .xnn | .xyn => 0xF000
  | .xy => 0xF00F
  | .x => 0xF0FF

/-- The match value of an instruction (30_encoding.md R84). -/
def Laws.matchOf : Instr → Word
  | .cls => 0x00E0
  | .ret => 0x00EE
  | .jp _ => 0x1000
  | .call _ => 0x2000
  | .seByte _ _ => 0x3000
  | .sneByte _ _ => 0x4000
  | .seReg _ _ => 0x5000
  | .ldByte _ _ => 0x6000
  | .addByte _ _ => 0x7000
  | .ldReg _ _ => 0x8000
  | .orReg _ _ => 0x8001
  | .andReg _ _ => 0x8002
  | .xorReg _ _ => 0x8003
  | .addReg _ _ => 0x8004
  | .sub _ _ => 0x8005
  | .shr _ _ => 0x8006
  | .subn _ _ => 0x8007
  | .shl _ _ => 0x800E
  | .sneReg _ _ => 0x9000
  | .ldI _ => 0xA000
  | .jpV0 _ => 0xB000
  | .rnd _ _ => 0xC000
  | .drw _ _ _ => 0xD000
  | .skp _ => 0xE09E
  | .sknp _ => 0xE0A1
  | .ldFromDT _ => 0xF007
  | .ldKey _ => 0xF00A
  | .ldToDT _ => 0xF015
  | .ldToST _ => 0xF018
  | .addI _ => 0xF01E
  | .ldF _ => 0xF029
  | .ldB _ => 0xF033
  | .storeRegs _ => 0xF055
  | .loadRegs _ => 0xF065

/-- The encoding of `i` carries `i`'s match value under the mask of its table: no field covers a match bit. -/
def Laws.Encoding.Statement (i : Instr) : Prop := encode i &&& Laws.maskOf i.format = Laws.matchOf i

theorem Laws.Encoding.cls : Laws.Encoding.Statement (.cls) := rfl

theorem Laws.Encoding.ret : Laws.Encoding.Statement (.ret) := rfl

theorem Laws.Encoding.jp (nnn : Addr12) : Laws.Encoding.Statement (.jp nnn) :=
  (packA_match 0x1000 nnn).trans rfl

theorem Laws.Encoding.call (nnn : Addr12) : Laws.Encoding.Statement (.call nnn) :=
  (packA_match 0x2000 nnn).trans rfl

theorem Laws.Encoding.seByte (x : Reg) (nn : Byte) : Laws.Encoding.Statement (.seByte x nn) :=
  (packXNN_match 0x3000 x nn).trans rfl

theorem Laws.Encoding.sneByte (x : Reg) (nn : Byte) : Laws.Encoding.Statement (.sneByte x nn) :=
  (packXNN_match 0x4000 x nn).trans rfl

theorem Laws.Encoding.seReg (x : Reg) (y : Reg) : Laws.Encoding.Statement (.seReg x y) :=
  (packXY_match 0x5000 x y).trans rfl

theorem Laws.Encoding.ldByte (x : Reg) (nn : Byte) : Laws.Encoding.Statement (.ldByte x nn) :=
  (packXNN_match 0x6000 x nn).trans rfl

theorem Laws.Encoding.addByte (x : Reg) (nn : Byte) : Laws.Encoding.Statement (.addByte x nn) :=
  (packXNN_match 0x7000 x nn).trans rfl

theorem Laws.Encoding.ldReg (x : Reg) (y : Reg) : Laws.Encoding.Statement (.ldReg x y) :=
  (packXY_match 0x8000 x y).trans rfl

theorem Laws.Encoding.orReg (x : Reg) (y : Reg) : Laws.Encoding.Statement (.orReg x y) :=
  (packXY_match 0x8001 x y).trans rfl

theorem Laws.Encoding.andReg (x : Reg) (y : Reg) : Laws.Encoding.Statement (.andReg x y) :=
  (packXY_match 0x8002 x y).trans rfl

theorem Laws.Encoding.xorReg (x : Reg) (y : Reg) : Laws.Encoding.Statement (.xorReg x y) :=
  (packXY_match 0x8003 x y).trans rfl

theorem Laws.Encoding.addReg (x : Reg) (y : Reg) : Laws.Encoding.Statement (.addReg x y) :=
  (packXY_match 0x8004 x y).trans rfl

theorem Laws.Encoding.sub (x : Reg) (y : Reg) : Laws.Encoding.Statement (.sub x y) :=
  (packXY_match 0x8005 x y).trans rfl

theorem Laws.Encoding.shr (x : Reg) (y : Reg) : Laws.Encoding.Statement (.shr x y) :=
  (packXY_match 0x8006 x y).trans rfl

theorem Laws.Encoding.subn (x : Reg) (y : Reg) : Laws.Encoding.Statement (.subn x y) :=
  (packXY_match 0x8007 x y).trans rfl

theorem Laws.Encoding.shl (x : Reg) (y : Reg) : Laws.Encoding.Statement (.shl x y) :=
  (packXY_match 0x800E x y).trans rfl

theorem Laws.Encoding.sneReg (x : Reg) (y : Reg) : Laws.Encoding.Statement (.sneReg x y) :=
  (packXY_match 0x9000 x y).trans rfl

theorem Laws.Encoding.ldI (nnn : Addr12) : Laws.Encoding.Statement (.ldI nnn) :=
  (packA_match 0xA000 nnn).trans rfl

theorem Laws.Encoding.jpV0 (nnn : Addr12) : Laws.Encoding.Statement (.jpV0 nnn) :=
  (packA_match 0xB000 nnn).trans rfl

theorem Laws.Encoding.rnd (x : Reg) (nn : Byte) : Laws.Encoding.Statement (.rnd x nn) :=
  (packXNN_match 0xC000 x nn).trans rfl

theorem Laws.Encoding.drw (x : Reg) (y : Reg) (n : Nibble) : Laws.Encoding.Statement (.drw x y n) :=
  (packXYN_match 0xD000 x y n).trans rfl

theorem Laws.Encoding.skp (x : Reg) : Laws.Encoding.Statement (.skp x) :=
  (packX_match 0xE09E 0xF0FF x (by decide)).trans rfl

theorem Laws.Encoding.sknp (x : Reg) : Laws.Encoding.Statement (.sknp x) :=
  (packX_match 0xE0A1 0xF0FF x (by decide)).trans rfl

theorem Laws.Encoding.ldFromDT (x : Reg) : Laws.Encoding.Statement (.ldFromDT x) :=
  (packX_match 0xF007 0xF0FF x (by decide)).trans rfl

theorem Laws.Encoding.ldKey (x : Reg) : Laws.Encoding.Statement (.ldKey x) :=
  (packX_match 0xF00A 0xF0FF x (by decide)).trans rfl

theorem Laws.Encoding.ldToDT (x : Reg) : Laws.Encoding.Statement (.ldToDT x) :=
  (packX_match 0xF015 0xF0FF x (by decide)).trans rfl

theorem Laws.Encoding.ldToST (x : Reg) : Laws.Encoding.Statement (.ldToST x) :=
  (packX_match 0xF018 0xF0FF x (by decide)).trans rfl

theorem Laws.Encoding.addI (x : Reg) : Laws.Encoding.Statement (.addI x) :=
  (packX_match 0xF01E 0xF0FF x (by decide)).trans rfl

theorem Laws.Encoding.ldF (x : Reg) : Laws.Encoding.Statement (.ldF x) :=
  (packX_match 0xF029 0xF0FF x (by decide)).trans rfl

theorem Laws.Encoding.ldB (x : Reg) : Laws.Encoding.Statement (.ldB x) :=
  (packX_match 0xF033 0xF0FF x (by decide)).trans rfl

theorem Laws.Encoding.storeRegs (x : Reg) : Laws.Encoding.Statement (.storeRegs x) :=
  (packX_match 0xF055 0xF0FF x (by decide)).trans rfl

theorem Laws.Encoding.loadRegs (x : Reg) : Laws.Encoding.Statement (.loadRegs x) :=
  (packX_match 0xF065 0xF0FF x (by decide)).trans rfl

end Sys2Proof
end

