-- ==== Sys2Proof/Laws/Step.lean ====
section
/-! SUPPORT. What one instruction and one step can do, said once: inversion lemmas of `exec`, `cycle` and `step`. -/

namespace Sys2Proof.Machine

/-- The ways a next state of an instruction differs from the state it ran on. A case names the instruction only where
the mode or the call stack changes. -/
inductive ExecEffect (i : Instr) (s : State) : State → Prop where
  | registers (V) : ExecEffect i s { s with V := V }
  | index (v) : ExecEffect i s (s.setI v)
  | counter (v) : ExecEffect i s (s.setPc v)
  | delayTimer (v) : ExecEffect i s (s.setDT v)
  | soundTimer (v) : ExecEffect i s (s.setST v)
  | display (d V) : ExecEffect i s { s with disp := d, V := V }
  | stores (a l) : ExecEffect i s (s.memWriteList a l)
  | wait (x) (hi : i = .ldKey x) : ExecEffect i s (s.setMode (.waitingForKey x))
  | underflow (hi : i = .ret) (h : s.SP = 0) : ExecEffect i s (s.raiseHalt .stackUnderflow)
  | pop (hi : i = .ret) (h0 : s.SP ≠ 0) (h) : ExecEffect i s (s.popPc h)
  | overflow (nnn) (hi : i = .call nnn) (h : s.SP = 16) : ExecEffect i s (s.raiseHalt .stackOverflow)
  | push (nnn) (hi : i = .call nnn) (h) : ExecEffect i s ((s.pushPc h).setPc (addrOperand nnn))

/-- What an instruction that answers a next state has done. -/
theorem exec_effect {i : Instr} {s t : State} (h : exec i s = .next t) : ExecEffect i s t := by
  cases i with
  | ret =>
    simp only [exec, execRet] at h
    split at h
    · rename_i h0
      cases h
      exact .underflow rfl h0
    · split at h
      · rename_i h0 h1
        cases h
        exact .pop rfl h0 h1
      · cases h
  | call nnn =>
    simp only [exec, execCall] at h
    split at h
    · rename_i h0
      cases h
      exact .overflow nnn rfl h0
    · split at h
      · rename_i h0 h1
        cases h
        exact .push nnn rfl h1
      · cases h
  | cls => cases h; exact .display _ s.V
  | drw => cases h; exact .display _ _
  | jp | seByte | sneByte | seReg | sneReg | jpV0 | skp | sknp => cases h; exact .counter _
  | ldI | addI | ldF => cases h; exact .index _
  | ldToDT => cases h; exact .delayTimer _
  | ldToST => cases h; exact .soundTimer _
  | ldKey x => cases h; exact .wait x rfl
  | ldB => cases h; exact .stores _ _
  | storeRegs x =>
    cases h
    rw [State.storeRegsAt_eq]
    exact .stores _ _
  | loadRegs x =>
    cases h
    rw [State.loadRegsAt_frame]
    exact .registers _
  | ldByte | addByte | ldReg | orReg | andReg | xorReg | addReg | sub | shr | subn | shl | rnd | ldFromDT =>
    cases h; exact .registers _

/-! ### CALL and RET, by what SP says (41_control_flow.md R121, R122) -/

theorem exec_call_free {s : State} (h : s.SP.toNat < 16) (nnn : Addr12) :
    exec (.call nnn) s = .next ((s.pushPc h).setPc (addrOperand nnn)) := by
  simp only [exec, execCall]
  rw [if_neg (by bv_omega), dif_pos h]

theorem exec_call_full {s : State} (h : s.SP = 16) (nnn : Addr12) :
    exec (.call nnn) s = .next (s.raiseHalt .stackOverflow) := by
  simp only [exec, execCall]
  rw [if_pos h]

theorem exec_ret_occupied {s : State} (h0 : s.SP ≠ 0) (h : (s.SP - 1).toNat < 16) :
    exec .ret s = .next (s.popPc h) := by
  simp only [exec, execRet]
  rw [if_neg h0, dif_pos h]

theorem exec_ret_empty {s : State} (h : s.SP = 0) : exec .ret s = .next (s.raiseHalt .stackUnderflow) := by
  simp only [exec, execRet]
  rw [if_pos h]

/-- No instruction is refused. -/
theorem exec_not_refused (i : Instr) (s : State) (r : Refusal) : exec i s ≠ .refused r := by
  cases i with
  | ret => simp only [exec, execRet]; split <;> [skip; split] <;> exact nofun
  | call => simp only [exec, execCall]; split <;> [skip; split] <;> exact nofun
  | _ => exact nofun

/-- The state an instruction runs on: the environment has acted, the diagnostic is clear, pc is past the word. -/
abbrev State.afterFetch (s : State) : State := (s.sampleInput.setDiag false).advancePc

theorem State.fetchWord_sampled (s : State) : (s.sampleInput.setDiag false).fetchWord = s.fetchWord := rfl

/-- What a step does, by the mode it finds (40_cycle.md R109). -/
theorem step_cases (s : State) :
    (∃ c a, s.mode = .halted c a ∧ step s = .next (s.sampleInput.setDiag false)) ∨
    (∃ x, s.mode = .waitingForKey x ∧ step s = .next ((s.sampleInput.setDiag false).pollKey x)) ∨
    (s.mode = .running ∧ ∃ i, decodeWord s.fetchWord = .instr i ∧ step s = exec i s.afterFetch) ∨
    (s.mode = .running ∧ ∃ w, decodeWord s.fetchWord = .unrecognized w ∧
      step s = .next (s.afterFetch.setDiag true)) := by
  simp only [step, stepCycle, cycle, State.sampleInput_mode]
  cases hm : s.mode with
  | halted c a => simp
  | waitingForKey x => simp
  | running =>
    simp only [runCycle, State.fetchWord_sampled]
    cases hd : decodeWord s.fetchWord <;> simp

/-- A run of one step more: for any machine, and for this one. -/
theorem coreRun_succ {M : Host.Core} {s t : M.State} (h : M.step s = .next t) (k : Nat) :
    M.run (k + 1) s = M.run k t := by
  rw [Host.Core.run.eq_2, h]

theorem run_succ {s t : State} (h : step s = .next t) (k : Nat) :
    Host.Core.run core (k + 1) s = Host.Core.run core k t :=
  coreRun_succ (M := core) h k

/-- The poll of a waiting cycle (40_cycle.md R106). -/
theorem State.pollKey_none {s : State} (h : s.keyIn = none) (x : Reg) : s.pollKey x = s := by
  simp [State.pollKey, h]

theorem State.pollKey_some {s : State} {k : Key} (h : s.keyIn = some k) (x : Reg) :
    s.pollKey x = (s.setV x (k.setWidth 8)).setMode .running := by
  simp [State.pollKey, h]

/-- The word that `withFetchWord` places is the one the next fetch reads, from any state with canonical memory. -/
theorem State.fetchWord_withFetchWord {s : State} (h : Memory.wf s.mem = true) (nbits w : Nat) :
    (s.withFetchWord nbits w).fetchWord = tableWord nbits w := by
  have hw := State.memWrite_wf h s.pc.toNat (highByte (tableWord nbits w))
  have hi : (s.withFetchWord nbits w).memRead s.pc.toNat = highByte (tableWord nbits w) := by
    refine (State.memRead_memWrite hw _ _ _).trans ?_
    rw [if_neg (by omega), State.memRead_memWrite h, if_pos rfl]
  have lo : (s.withFetchWord nbits w).memRead (s.pc.toNat + 1) = lowByte (tableWord nbits w) := by
    refine (State.memRead_memWrite hw _ _ _).trans ?_
    rw [if_pos rfl]
  show wordOfBytes ((s.withFetchWord nbits w).memRead s.pc.toNat) ((s.withFetchWord nbits w).memRead (s.pc.toNat + 1)) = _
  rw [hi, lo, wordOfBytes_highByte_lowByte]

end Sys2Proof.Machine
end

