-- ==== Sys2Proof/Machine/Keypad.lean ====
section
/-! DEFINITION. The keypad provider's side of `key_in`: the mapping of host symbols to key values, which the spec places
outside the block with the OPEN parameter `keymap` (45_timers_keys.md R217, 92_eei_decisions.md D2). -/

namespace Sys2Proof.Machine

/-- `keymap`, the symbol-to-value table; its contents are OPEN (93_implementation_defined.md U8). -/
abbrev Keymap := List (Char × Key)

/-- The value of the first row for a symbol, letter case ignored (45_timers_keys.md R217). -/
def lookupKey (symbol : Char) : Keymap → Option Key
  | [] => none
  | (c, k) :: rest => if c.toLower = symbol.toLower then some k else lookupKey symbol rest

/-- `key_in` for what the provider supplies, no key or one symbol: a symbol outside the table arrives as NONE
(45_timers_keys.md R217). -/
def keyInOf (keymap : Keymap) : Option Char → Option Key
  | none => none
  | some symbol => lookupKey symbol keymap

end Sys2Proof.Machine
end

