-- ==== Sys2Proof/Tests/Slice0.lean ====
section
/-! SUPPORT. The model's own tests: ill-formed terms, words written out from the spec's encodings, vectors of
95_test_vectors.md (named at each test), and a witness for every obligation that has hypotheses. -/

namespace Sys2Proof.Tests

open Sys2Proof.Machine

/-! ### Well-formedness: one ill-formed term for each check (30_encoding.md R71-R73; 70_reset_and_hazards.md R263, R264) -/

theorem test_wf_register_16 : operandsWellFormed .x [.reg 15] = true ∧ operandsWellFormed .x [.reg 16] = false := by decide
theorem test_wf_second_register_16 : operandsWellFormed .xy [.reg 0, .reg 16] = false := by decide
theorem test_wf_byte_256 :
    operandsWellFormed .xnn [.reg 0, .byte 255] = true ∧ operandsWellFormed .xnn [.reg 0, .byte 256] = false := by decide
theorem test_wf_address_4096 : operandsWellFormed .a [.addr 4095] = true ∧ operandsWellFormed .a [.addr 4096] = false := by
  decide
theorem test_wf_nibble_16 : operandsWellFormed .xyn [.reg 0, .reg 0, .nibble 15] = true ∧
    operandsWellFormed .xyn [.reg 0, .reg 0, .nibble 16] = false := by decide
theorem test_wf_operand_kind : operandsWellFormed .xy [.reg 0, .byte 1] = false := by decide
theorem test_wf_operand_missing : operandsWellFormed .x [] = false := by decide
theorem test_wf_operand_extra : operandsWellFormed .none [.reg 0] = false := by decide
theorem test_wf_font_79 : fontWellFormed Config.defaultFont = true ∧ fontWellFormed (Config.defaultFont.drop 1) = false := by
  decide
theorem test_wf_image_3585 :
    imageWellFormed (List.replicate 3584 0) = true ∧ imageWellFormed (List.replicate 3585 0) = false := by
  simp only [imageWellFormed, List.length_replicate]
  decide

/-! ### Decoding: a word for every instruction, its bits written out from 30_encoding.md R71 and R84 -/

theorem test_decode_table_T1 :
    decodeTableWord 16 0b0000_0000_1110_0000 = some .cls ∧ decodeTableWord 16 0b0000_0000_1110_1110 = some .ret := by
  decide

theorem test_decode_table_T2_addresses :
    decodeTableWord 16 0b0001_1010_1011_1100 = some (.jp 0xABC) ∧
    decodeTableWord 16 0b0010_0010_0000_0110 = some (.call 0x206) ∧
    decodeTableWord 16 0b1010_0011_0000_0000 = some (.ldI 0x300) ∧
    decodeTableWord 16 0b1011_1111_1111_1111 = some (.jpV0 0xFFF) := by decide

theorem test_decode_table_T2_registers :
    decodeTableWord 16 0b0011_0010_0011_0011 = some (.seByte 2 0x33) ∧
    decodeTableWord 16 0b0100_0011_0001_0001 = some (.sneByte 3 0x11) ∧
    decodeTableWord 16 0b0110_1010_0100_0010 = some (.ldByte 10 0x42) ∧
    decodeTableWord 16 0b0111_1111_1111_0101 = some (.addByte 15 0xF5) ∧
    decodeTableWord 16 0b1100_0011_0000_1111 = some (.rnd 3 0x0F) ∧
    decodeTableWord 16 0b1101_0001_0010_1111 = some (.drw 1 2 15) := by decide

theorem test_decode_table_T3 :
    decodeTableWord 16 0b0101_0001_0010_0000 = some (.seReg 1 2) ∧
    decodeTableWord 16 0b1000_0001_0010_0000 = some (.ldReg 1 2) ∧
    decodeTableWord 16 0b1000_0001_0010_0001 = some (.orReg 1 2) ∧
    decodeTableWord 16 0b1000_0001_0010_0010 = some (.andReg 1 2) ∧
    decodeTableWord 16 0b1000_0001_0010_0011 = some (.xorReg 1 2) ∧
    decodeTableWord 16 0b1000_0001_0010_0100 = some (.addReg 1 2) ∧
    decodeTableWord 16 0b1000_0001_0010_0101 = some (.sub 1 2) ∧
    decodeTableWord 16 0b1000_0001_0010_0110 = some (.shr 1 2) ∧
    decodeTableWord 16 0b1000_0001_0010_0111 = some (.subn 1 2) ∧
    decodeTableWord 16 0b1000_0001_0010_1110 = some (.shl 1 2) ∧
    decodeTableWord 16 0b1001_0001_0010_0000 = some (.sneReg 1 2) := by decide

theorem test_decode_table_T4 :
    decodeTableWord 16 0b1110_0001_1001_1110 = some (.skp 1) ∧
    decodeTableWord 16 0b1110_0001_1010_0001 = some (.sknp 1) ∧
    decodeTableWord 16 0b1111_0101_0000_0111 = some (.ldFromDT 5) ∧
    decodeTableWord 16 0b1111_0011_0000_1010 = some (.ldKey 3) ∧
    decodeTableWord 16 0b1111_0101_0001_0101 = some (.ldToDT 5) ∧
    decodeTableWord 16 0b1111_0010_0001_1000 = some (.ldToST 2) ∧
    decodeTableWord 16 0b1111_0010_0001_1110 = some (.addI 2) ∧
    decodeTableWord 16 0b1111_0000_0010_1001 = some (.ldF 0) ∧
    decodeTableWord 16 0b1111_0000_0011_0011 = some (.ldB 0) ∧
    decodeTableWord 16 0b1111_0011_0101_0101 = some (.storeRegs 3) ∧
    decodeTableWord 16 0b1111_0011_0110_0101 = some (.loadRegs 3) := by decide

/-- 95_test_vectors.md D-1 to D-9. -/
theorem test_decode_unrecognized :
    [0x0000, 0x00E1, 0x0123, 0x5121, 0x8128, 0x9121, 0xE19F, 0xF100, 0xFFFF].map (decodeTableWord 16) =
      List.replicate 9 none := by decide

/-- The written form, 30_encoding.md R83 and R84. -/
theorem test_assembly :
    (Instr.call 0x206).assembly = "CALL 0x206" ∧ (Instr.ldByte 10 0x42).assembly = "LD VA, 0x42" ∧
    (Instr.storeRegs 3).assembly = "LD [I], V3" ∧ (Instr.addByte 0 1).assembly = "ADD V0, 0x01" ∧
    (Instr.drw 0 1 2).assembly = "DRW V0, V1, 2" := by decide

/-- 45_timers_keys.md R217: letter case is ignored, a symbol outside the table is no key. -/
theorem test_keymap : keyInOf [('A', 0xA), ('0', 0)] (some 'a') = some 0xA ∧ keyInOf [('A', 0xA)] (some 'z') = none ∧
    keyInOf [('A', 0xA)] none = none := by decide

/-! ### One step of each instruction: vectors of 95_test_vectors.md, L1 and L2 -/

/-- A cycle before which the environment does nothing and presents no key. -/
def quiet : Config.CycleInput := ⟨0, 0, none, 0⟩

/-- Reset, with VF = 0x55 so that "VF unchanged" can be seen. -/
def base : State := State.reset.setV 15 0x55

/-- The two registers the vectors name most. -/
def regs (v0 v1 : Byte) : State := (base.setV 0 v0).setV 1 v1

/-- The state a cycle leaves that fetches `w` at pc from `s`, with the environment doing `a`. -/
def ran (w : Nat) (s : State) (a : Config.CycleInput := quiet) : Option State :=
  match step { s.withFetchWord 16 w with inputs := [a] } with
  | .next t => some t
  | _ => none

/-- G-12. -/
theorem test_cls : (ran 0x00E0 (base.setDisp (plotPixel 63 31 (Display.off, false)).1)).map
    (fun t => (t.disp.pixel 63 31, t.getV 15)) = some (false, 0x55) := by decide
/-- C-6. -/
theorem test_ret : (ran 0x00EE { base with pc := 0x206, SP := 1, stack := base.stack.set 0 0x202 }).map
    (fun t => (t.pc, t.SP, t.stack[0])) = some (0x202, 0, 0x202) := by decide
/-- C-7. -/
theorem test_ret_underflow : (ran 0x00EE base).map (fun t => (t.mode, t.pc, t.SP)) =
    some (.halted .stackUnderflow 0x200, 0x202, 0) := by decide
/-- C-1. -/
theorem test_jp : (ran 0x1ABC base).map (·.pc) = some 0x0ABC := by decide
/-- C-4: the pushed pc is unreduced. -/
theorem test_call : (ran 0x2300 { base with pc := 0xFFE, SP := 3 }).map (fun t => (t.pc, t.SP, t.stack[3])) =
    some (0x300, 4, 0x1000) := by decide
/-- C-5. -/
theorem test_call_overflow : (ran 0x2300 { base with SP := 16 }).map (fun t => (t.mode, t.pc, t.SP)) =
    some (.halted .stackOverflow 0x200, 0x202, 16) := by decide
/-- E10. -/
theorem test_se_byte : (ran 0x3233 (base.setV 2 0x33)).map (·.pc) = some 0x204 ∧
    (ran 0x3233 (base.setV 2 0x34)).map (·.pc) = some 0x202 := by decide
/-- C-18: a skip on an unreduced pc. -/
theorem test_se_byte_unreduced : (ran 0x3000 (base.setPc 0xFFE)).map (·.pc) = some 0x1002 := by decide
/-- C-8, C-9. -/
theorem test_sne_byte : (ran 0x4311 (base.setV 3 0x10)).map (·.pc) = some 0x204 ∧
    (ran 0x4311 (base.setV 3 0x11)).map (·.pc) = some 0x202 := by decide
/-- C-10, C-11. -/
theorem test_se_reg : (ran 0x5120 ((base.setV 1 7).setV 2 7)).map (·.pc) = some 0x204 ∧
    (ran 0x5120 ((base.setV 1 7).setV 2 8)).map (·.pc) = some 0x202 := by decide
/-- C-13, C-14. -/
theorem test_sne_reg : (ran 0x9120 ((base.setV 1 7).setV 2 8)).map (·.pc) = some 0x204 ∧
    (ran 0x9440 base).map (·.pc) = some 0x202 := by decide
/-- C-16. -/
theorem test_jp_v0 : (ran 0xBFFF (regs 0xFF 0)).map (·.pc) = some 0x10FE := by decide
/-- C-17: the offset is V0, not V7. -/
theorem test_jp_v0_not_v7 : (ran 0xB700 (base.setV 7 0x10)).map (·.pc) = some 0x700 := by decide

/-- A-1. -/
theorem test_ld_byte : (ran 0x6A42 base).map (fun t => (t.getV 10, t.pc)) = some (0x42, 0x202) := by decide
/-- A-2. -/
theorem test_add_byte : (ran 0x7001 (regs 0xFF 0)).map (fun t => (t.getV 0, t.getV 15)) = some (0x00, 0x55) := by decide
/-- A-4. -/
theorem test_ld_reg : (ran 0x8010 (regs 0 0x33)).map (fun t => (t.getV 0, t.getV 15)) = some (0x33, 0x55) := by decide
/-- A-5. -/
theorem test_or : (ran 0x8011 (regs 0x0F 0xF0)).map (fun t => (t.getV 0, t.getV 15)) = some (0xFF, 0x55) := by decide
/-- A-7. -/
theorem test_and : (ran 0x8012 (regs 0x3C 0x0F)).map (fun t => (t.getV 0, t.getV 15)) = some (0x0C, 0x55) := by decide
/-- A-8. -/
theorem test_xor : (ran 0x8013 (regs 0xFF 0x0F)).map (fun t => (t.getV 0, t.getV 15)) = some (0xF0, 0x55) := by decide
/-- A-11. -/
theorem test_add_reg : (ran 0x8014 (regs 0x80 0x80)).map (fun t => (t.getV 0, t.getV 15)) = some (0x00, 1) := by decide
/-- A-6: the flag first, then the result. -/
theorem test_add_reg_into_VF : (ran 0x8F14 ((regs 0 0x20).setV 15 0xF0)).map (·.getV 15) = some 0x10 := by decide
/-- A-14. -/
theorem test_sub : (ran 0x8015 (regs 0x10 0xFF)).map (fun t => (t.getV 0, t.getV 15)) = some (0x11, 0) := by decide
/-- A-13 [C4]. -/
theorem test_sub_equal : (ran 0x8015 (regs 0x05 0x05)).map (fun t => (t.getV 0, t.getV 15)) = some (0x00, 1) := by decide
/-- A-18: Y is ignored. -/
theorem test_shr : (ran 0x8016 (regs 0x05 0xEE)).map (fun t => (t.getV 0, t.getV 15)) = some (0x02, 1) := by decide
/-- A-19. -/
theorem test_shr_VF : (ran 0x8F06 (base.setV 15 0x02)).map (·.getV 15) = some 0x01 := by decide
/-- A-21. -/
theorem test_subn : (ran 0x8017 (regs 0x01 0x03)).map (fun t => (t.getV 0, t.getV 15)) = some (0x02, 1) := by decide
/-- A-22. -/
theorem test_subn_borrow : (ran 0x8017 (regs 0x05 0x01)).map (fun t => (t.getV 0, t.getV 15)) = some (0xFC, 0) := by decide
/-- E5. -/
theorem test_shl : (ran 0x800E (regs 0xC0 0)).map (fun t => (t.getV 0, t.getV 15)) = some (0x80, 1) := by decide
/-- A-20. -/
theorem test_shl_VF : (ran 0x8FFE (base.setV 15 0x81)).map (·.getV 15) = some 0x02 := by decide
/-- A-28. -/
theorem test_rnd : (ran 0xC30F base ⟨0, 0, none, 0xB7⟩).map (fun t => (t.getV 3, t.getV 15)) = some (0x07, 0x55) := by
  decide

/-- M-1. -/
theorem test_ld_i : (ran 0xA300 base).map (·.I) = some 0x300 := by decide
/-- M-3: not reduced to 12 bits. -/
theorem test_add_i : (ran 0xF01E ((regs 1 0).setI 0x0FFF)).map (fun t => (t.I, t.getV 15)) = some (0x1000, 0x55) := by
  decide
/-- M-6. -/
theorem test_ld_f : (ran 0xF029 (regs 0x1A 0)).map (·.I) = some 0x032 := by decide
/-- M-11: the addresses wrap. -/
theorem test_ld_b : (ran 0xF033 ((regs 37 0).setI 0xFFF)).map
    (fun t => (t.memRead 0xFFF, t.memRead 0x000, t.memRead 0x001, t.I)) = some (0, 3, 7, 0xFFF) := by decide
/-- M-13: only V0. -/
theorem test_store_regs : (ran 0xF055 ((regs 0x77 0x88).setI 0x400)).map (fun t => (t.memRead 0x400, t.memRead 0x401)) =
    some (0x77, 0) := by decide
/-- M-12: the addresses wrap. -/
theorem test_store_regs_wrap : (ran 0xF355 ((((regs 0x0A 0x0B).setV 2 0x0C).setV 3 0x0D).setI 0xFFE)).map
    (fun t => (t.memRead 0xFFE, t.memRead 0xFFF, t.memRead 0x000, t.memRead 0x001, t.I)) =
    some (0x0A, 0x0B, 0x0C, 0x0D, 0xFFE) := by decide
/-- M-15. -/
theorem test_load_regs : (ran 0xF165 (((base.memWrite 0xFFE 0x12).memWrite 0xFFF 0x34).setI 0x1FFE)).map
    (fun t => (t.getV 0, t.getV 1, t.getV 2, t.I)) = some (0x12, 0x34, 0, 0x1FFE) := by decide

/-- G-9: the second row is clipped, and a pixel goes off. -/
theorem test_drw_clips : (ran 0xD012 ((((regs 0 31).memWrite 0x300 0x80).memWrite 0x301 0x80).setI 0x300
    |>.setDisp (plotPixel 0 31 (Display.off, false)).1)).map
    (fun t => (t.disp.pixel 0 31, t.disp.pixel 0 0, t.getV 15)) = some (false, false, 1) := by decide
/-- G-10: VF as the origin is read before VF is written. -/
theorem test_drw_origin_in_VF : (ran 0xDF11 (((base.setV 15 8).memWrite 0x300 0x80).setI 0x300)).map
    (fun t => (t.disp.pixel 8 0, t.disp.pixel 0 0, t.getV 15)) = some (true, false, 0) := by decide

/-- K-1, K-3: all 8 bits are compared. -/
theorem test_skp : (ran 0xE19E (regs 0 0x0A) ⟨0, 0, some 0xA, 0⟩).map (·.pc) = some 0x204 ∧
    (ran 0xE19E (regs 0 0x1A) ⟨0, 0, some 0xA, 0⟩).map (·.pc) = some 0x202 := by decide
/-- K-4, K-6. -/
theorem test_sknp : (ran 0xE1A1 (regs 0 0x0A)).map (·.pc) = some 0x204 ∧
    (ran 0xE1A1 (regs 0 0x0A) ⟨0, 0, some 0xA, 0⟩).map (·.pc) = some 0x202 := by decide
/-- K-8, with two ticks before the cycle (K-11's action). -/
theorem test_ld_from_dt : (ran 0xF507 (base.setDT 0x3C) ⟨2, 0, none, 0⟩).map (·.getV 5) = some 0x3A := by decide
/-- K-13: the key of the first cycle is not consumed. -/
theorem test_ld_key : (ran 0xF20A base ⟨0, 0, some 4, 0⟩).map (fun t => (t.mode, t.pc, t.getV 2)) =
    some (.waitingForKey 2, 0x202, 0) := by decide
/-- K-9. -/
theorem test_ld_to_dt : (ran 0xF515 (base.setV 5 0x3C)).map (·.DT) = some 0x3C := by decide
/-- K-10. -/
theorem test_ld_to_st : (ran 0xF218 (base.setV 2 0x05)).map (·.ST) = some 0x05 := by decide

/-- Y-7: the wait ends and nothing is fetched. -/
theorem test_wait_ends : (match step { base with mode := .waitingForKey 5, pc := 0x20A, inputs := [⟨0, 0, some 0xC, 0⟩] } with
    | .next t => some (t.getV 5, t.mode, t.pc) | _ => none) = some (0x0C, .running, 0x20A) := by decide
/-- H-1, H-2: a halted core stays, the timers go on. -/
theorem test_halted : (match step { base with mode := .halted .stackUnderflow 0x200, DT := 5, inputs := [⟨1, 0, some 1, 0⟩] } with
    | .next t => some (t.mode, t.pc, t.DT) | _ => none) = some (.halted .stackUnderflow 0x200, 0x200, 4) := by decide
/-- D-4. -/
theorem test_unrecognized : (ran 0x5121 base).map (fun t => (t.pc, t.diagUnrecognized)) = some (0x202, true) := by decide
/-- Y-1: the fetch at 0xFFF reads its second byte at 0x000. -/
theorem test_fetch_wraps : (ran 0x6012 (base.setPc 0xFFF)).map (fun t => (t.memRead 0xFFF, t.memRead 0, t.getV 0, t.pc)) =
    some (0x60, 0x12, 0x12, 0x1001) := by decide
/-- Y-4: pc wraps at 65536. -/
theorem test_pc_wraps : (ran 0x7001 (base.setPc 0xFFFE)).map (fun t => (t.getV 0, t.pc, t.memRead 0xFFE)) =
    some (1, 0, 0x70) := by decide

/-! ### Witnesses: the hypotheses of each obligation, met together; boundary values for each clause -/

/-- A launch of a program, of an empty one, and of the longest one. -/
theorem witness_BootLoadsFontAndProgram :
    (∃ s, State.boot Config.resetParams Config.defaultFont [0x12, 0x00] = some s) ∧
    (∃ s, State.boot Config.resetParams Config.defaultFont [] = some s) ∧
    (∃ s, State.boot Config.resetParams Config.defaultFont (List.replicate 3584 0xFF) = some s) ∧
    ¬∃ s, State.boot Config.resetParams Config.defaultFont (List.replicate 3585 0xFF) = some s := by
  have long : ∀ n, State.boot Config.resetParams Config.defaultFont (List.replicate n 0xFF) =
      if n ≤ 3584 then some ((State.resetWith Config.resetParams).load Config.defaultFont (List.replicate n 0xFF))
      else none := by
    intro n
    unfold State.boot
    rw [show fontWellFormed Config.defaultFont = true from rfl, Bool.true_and, imageWellFormed, List.length_replicate]
    simp only [decide_eq_true_eq]
    rfl
  refine ⟨⟨_, rfl⟩, ⟨_, rfl⟩, ?_, ?_⟩
  · rw [long, if_pos (by decide)]
    exact ⟨_, rfl⟩
  · rw [long, if_neg (by decide)]
    exact nofun

/-- The clauses of the loader at their ends: first and last byte of the font and of the program, and what lies around. -/
theorem witness_BootLoadsFontAndProgram_clauses :
    (State.boot Config.resetParams Config.defaultFont [0x12, 0x01]).map
      (fun s => (s.memRead 0, s.memRead 79, s.memRead 80, s.memRead 0x1FF, s.memRead 0x200, s.memRead 0x201,
        s.memRead 0x202, s.memRead 0xFFF)) = some (0xF0, 0x80, 0, 0, 0x12, 0x01, 0, 0) := by decide

theorem witness_FirstFetchReadsProgramBase :
    ∃ s, State.boot Config.resetParams Config.defaultFont (0x12 :: 0x00 :: []) = some s := ⟨_, rfl⟩

theorem witness_EncodeInvertsDecode :
    decodeWord 0x00E0 = .instr .cls ∧ decodeWord 0xDFFF = .instr (.drw 15 15 15) ∧
    decodeWord 0x8FFE = .instr (.shl 15 15) ∧ decodeWord 0xFF65 = .instr (.loadRegs 15) := by decide

theorem witness_DecodeReadsOneWordOfBytes :
    ([] : List Byte).length < 2 ∧ ([0x00] : List Byte).length < 2 ∧
    decodeWord ((0x00 : Byte) ++ (0x00 : Byte)) = .unrecognized 0x0000 ∧
    decodeWord ((0xFF : Byte) ++ (0xFF : Byte)) = .unrecognized 0xFFFF := by decide

/-- The fetched word of a statement that writes it out, at pc = 0x200 and at 0xFFF, where the second byte wraps. -/
theorem witness_StepRunsDecodedInstruction :
    (base.withFetchWord 16 0x00E0).mode = .running ∧
    decodeWord (BitVec.ofNat 16 (((base.withFetchWord 16 0x00E0).memRead 0x200).toNat * 256 +
      ((base.withFetchWord 16 0x00E0).memRead (0x200 + 1)).toNat)) = .instr .cls ∧
    decodeWord (BitVec.ofNat 16 ((((base.setPc 0xFFF).withFetchWord 16 0x6012).memRead 0xFFF).toNat * 256 +
      (((base.setPc 0xFFF).withFetchWord 16 0x6012).memRead (0xFFF + 1)).toNat)) = .instr (.ldByte 0 0x12) := by decide

theorem witness_UnrecognizedWordIsNoOp :
    State.reset.mode = .running ∧
    decodeWord (BitVec.ofNat 16 ((State.reset.memRead State.reset.pc.toNat).toNat * 256 +
      (State.reset.memRead (State.reset.pc.toNat + 1)).toNat)) = .unrecognized 0x0000 := by decide

/-- A wait, polled without a key and with the keys 0 and F. -/
theorem witness_WaitingStepPollsTheKey :
    (base.setMode (.waitingForKey 15)).mode = .waitingForKey 15 ∧
    ({ base.setMode (.waitingForKey 15) with inputs := [quiet] } : State).sampleInput.keyIn = none ∧
    ({ base.setMode (.waitingForKey 15) with inputs := [⟨0, 0, some 0, 0⟩] } : State).sampleInput.keyIn = some 0 ∧
    ({ base.setMode (.waitingForKey 15) with inputs := [⟨0, 0, some 15, 0⟩] } : State).sampleInput.keyIn = some 15 := by
  decide

theorem witness_WaitEndsWithTheFirstKey :
    (∀ a ∈ [quiet, quiet, quiet], a.key = none) ∧ (⟨0, 0, some 7, 0⟩ : Config.CycleInput).key = some 7 ∧
    ({ base.setMode (.waitingForKey 3) with inputs := [quiet, quiet, quiet] ++ ⟨0, 0, some 7, 0⟩ :: [] } : State).inputs =
      [quiet, quiet, quiet] ++ ⟨0, 0, some 7, 0⟩ :: [] ∧
    ({ base.setMode (.waitingForKey 3) with inputs := [quiet, quiet, quiet] ++ ⟨0, 0, some 7, 0⟩ :: [] } : State).mode =
      .waitingForKey 3 := by decide

theorem witness_HaltIsPermanent : (base.setMode (.halted .stackOverflow 0x200)).mode = .halted .stackOverflow 0x200 := rfl

/-- Ticks up to, at and past the value of a timer. -/
theorem witness_EnvironmentTicksAndSamples :
    ({ base.setDT 2 with inputs := [⟨3, 0, some 15, 0xFF⟩] } : State).inputs = ⟨3, 0, some 15, 0xFF⟩ :: [] ∧
    ({ base.setDT 2 with inputs := [⟨3, 0, some 15, 0xFF⟩] } : State).sampleInput.DT = 0 ∧
    ({ base.setDT 2 with inputs := [⟨2, 0, none, 0⟩] } : State).sampleInput.DT = 0 ∧
    ({ base.setDT 2 with inputs := [⟨1, 0, none, 0⟩] } : State).sampleInput.DT = 1 ∧
    State.reset.inputs = [] := by decide

/-- The invariant, in the three modes, with SP at both ends. -/
theorem witness_EveryCycleCompletes :
    State.reset.Inv ∧ ({ State.reset with SP := 16 } : State).Inv ∧
    ({ (State.reset.withFetchWord 16 0xFF0A).advancePc with mode := .waitingForKey 15 } : State).Inv ∧
    ({ (State.reset.withFetchWord 16 0x2200).advancePc with mode := .halted .stackOverflow 0x200, SP := 16 } : State).Inv ∧
    ({ (State.reset.withFetchWord 16 0x00EE).advancePc with mode := .halted .stackUnderflow 0x200 } : State).Inv := by
  unfold State.Inv
  decide

theorem witness_StepKeepsInvariant : ∃ t, State.reset.Inv ∧ step State.reset = .next t :=
  ⟨_, witness_EveryCycleCompletes.1, rfl⟩

/-- A self-jump at 0x200 and one at 0xFFF, the last address a jump can name, where the word wraps. -/
theorem witness_SelfJumpRunsForEver :
    (State.reset.withFetchWord 16 0x1200).atEnd = true ∧
    ((State.reset.setPc 0xFFF).withFetchWord 16 0x1FFF).atEnd = true := by decide

/-- Both clauses of SE and SNE: equal and different operands, at the ends of their range. -/
theorem witness_ByteSkipsCompare :
    (regs 0xFF 0).getV 0 = 0xFF ∧ (regs 0xFF 0).getV 0 ≠ 0xFE ∧ (regs 0 0xFF).getV 0 = 0 ∧ (regs 0 0xFF).getV 0 ≠ 1 := by
  decide
theorem witness_RegisterSkipsCompare :
    (regs 7 7).getV 0 = (regs 7 7).getV 1 ∧ (regs 0 0xFF).getV 0 ≠ (regs 0 0xFF).getV 1 ∧ (4 : Reg) = 4 := by decide

theorem witness_CallPushesAndJumps : base.SP < 16 ∧ ({ base with SP := 15 } : State).SP < 16 := by decide
theorem witness_RetPopsAndReturns :
    (0 < ({ base with SP := 1 } : State).SP ∧ ({ base with SP := 1 } : State).SP ≤ 16) ∧
    (0 < ({ base with SP := 16 } : State).SP ∧ ({ base with SP := 16 } : State).SP ≤ 16) := by decide
theorem witness_StackBoundsHalt : ({ base with SP := 16 } : State).SP = 16 ∧ base.SP = 0 := by decide
theorem witness_AbsentStackEntryFaults :
    16 < ({ base with SP := 17 } : State).SP ∧ 16 < ({ base with SP := 0xFF } : State).SP := by decide

/-- CALL and RET at both ends of the stack, and another instruction. -/
theorem witness_CallStackIsLastInFirstOut :
    (∃ t, exec (.call 0x300) { base with SP := 15 } = .next t) ∧ (∃ t, exec (.call 0x300) { base with SP := 16 } = .next t) ∧
    (∃ t, exec .ret { base with SP := 16 } = .next t) ∧ (∃ t, exec .ret { base with SP := 0 } = .next t) ∧
    callStack { base with SP := 1 } = 0 :: [] ∧ callStack base = [] ∧ (∃ t, exec .cls base = .next t) :=
  ⟨⟨_, rfl⟩, ⟨_, rfl⟩, ⟨_, rfl⟩, ⟨_, rfl⟩, rfl, rfl, ⟨_, rfl⟩⟩

theorem witness_CallThenRetReturns :
    ({ base with SP := 15 } : State).SP < 16 ∧
    ∃ t, exec (.call 0x206) { base with SP := 15 } = .next t ∧ ∃ u : State, u.SP = t.SP ∧ u.stack = t.stack :=
  ⟨by decide, _, rfl, _, rfl, rfl⟩

/-- Two states that differ in the first entry that is not occupied, and a step of one of them. -/
theorem witness_StaleStackEntriesAreUnobservable :
    ({ base with SP := 1 } : State).SP ≤ 16 ∧
    SameButStaleStack { base with SP := 1 } { base with SP := 1, stack := base.stack.set 1 0x202 } ∧
    (∃ u, step { base with SP := 1 } = .next u) ∧ ({ base with SP := 16 } : State).SP ≤ 16 := by
  refine ⟨by decide, ⟨rfl, fun k hk => ?_⟩, ⟨_, rfl⟩, by decide⟩
  have hk0 : k = 0 := Fin.ext (by simpa using hk)
  subst hk0
  rfl

/-- X other than F and F itself, and a register that is neither (the clauses of the ADD, SUB, SUBN, SHR and SHL
statements), with sums of 255 and 256 and equal, greater and smaller operands. -/
theorem witness_FlagWriters :
    ((0 : Reg) ≠ 15 ∧ (14 : Reg) ≠ 15 ∧ (1 : Reg) ≠ 0 ∧ (1 : Reg) ≠ 15) ∧
    (ran 0x8014 (regs 0x7F 0x80)).map (·.getV 15) = some 0 ∧ (ran 0x8014 (regs 0x80 0x80)).map (·.getV 15) = some 1 ∧
    (ran 0x8015 (regs 1 1)).map (·.getV 15) = some 1 ∧ (ran 0x8015 (regs 1 2)).map (·.getV 15) = some 0 := by decide

theorem witness_RndMasksTheDraw : (0x05 : Byte) &&& 0x0F = 0x05 ∧ (0xFF : Byte) &&& 0xFF = 0xFF ∧ (0 : Byte) &&& 0 = 0 := by
  decide

/-- Canonical memory, and addresses outside and inside the stored bytes, at the wrap too. -/
theorem witness_BcdStoresThreeDigits :
    Memory.wf State.reset.mem = true ∧ Memory.wf (regs 37 0 |>.memWrite 0xFFF 1).mem = true ∧
    (2 % 4096 ≠ 0xFFF % 4096 ∧ 2 % 4096 ≠ (0xFFF + 1) % 4096 ∧ 2 % 4096 ≠ (0xFFF + 2) % 4096) := by decide

theorem witness_RegisterSaveStoresEach :
    Memory.wf State.reset.mem = true ∧ ((15 : Reg) ≤ 15 ∧ (0 : Reg) ≤ 15 ∧ (0 : Reg) ≤ 0) ∧
    ∀ i : Reg, i ≤ 3 → 2 % 4096 ≠ (0xFFE + i.val) % 4096 := by decide

theorem witness_RegisterLoadReadsEach : ((15 : Reg) ≤ 15 ∧ (0 : Reg) ≤ 0) ∧ ((14 : Reg) < 15 ∧ (0 : Reg) < 1) := by decide

theorem witness_SaveThenLoadRestores :
    Memory.wf State.reset.mem = true ∧
    ∃ t, exec (.storeRegs 3) State.reset = .next t ∧ ∃ u : State, u.mem = t.mem ∧ u.I = State.reset.I :=
  ⟨rfl, _, rfl, _, rfl, rfl⟩

/-- Canonical memory, and words of which LD B at I = 0xFFF stores both bytes, the high byte, the low byte and none. -/
theorem witness_StoredCodeIsFetched :
    Memory.wf State.reset.mem = true ∧
    (0x1FFF % 4096 = (0xFFF + 0) % 4096 ∧ (0x1FFF + 1) % 4096 = (0xFFF + 1) % 4096) ∧
    (1 % 4096 = (0xFFF + 2) % 4096 ∧ ∀ j, j < 3 → (1 + 1) % 4096 ≠ (0xFFF + j) % 4096) ∧
    ((0xFFE + 1) % 4096 = (0xFFF + 0) % 4096 ∧ ∀ j, j < 3 → 0xFFE % 4096 ≠ (0xFFF + j) % 4096) ∧
    ((((List.finRange 16).take ((15 : Reg).val + 1)).map State.reset.getV).length = 16 ∧
      (((List.finRange 16).take ((0 : Reg).val + 1)).map State.reset.getV).length = 1) := by decide

/-- 95_test_vectors.md P6: LD B overwrites the low byte of one word and the whole of the next. -/
theorem test_stored_code : (match exec (.ldB 0) (((regs 7 0).memWriteList 0x208 [0x65, 0xFF]).setI 0x209) with
    | .next t => some ((t.setPc 0x208).fetchWord, (t.setPc 0x20A).fetchWord) | _ => none) = some (0x6500, 0x0007) := by decide

/-- On-screen pixels at both corners, and a sprite that covers one. -/
theorem witness_DrwFlipsPixelsAndReportsCollision :
    ((0 < 64 ∧ 0 < 32) ∧ (63 < 64 ∧ 31 < 32)) ∧
    SpriteCovers ((base.memWrite 0x300 0x01).setI 0x300) 0x300 1 56 31 63 31 :=
  ⟨by decide, 0, 7, by decide, by decide, rfl, rfl, by decide⟩

theorem witness_DrwOffScreenDrawsNothing :
    64 ≤ ((regs 64 0).getV 0).toNat ∧ 32 ≤ ((regs 0 32).getV 1).toNat ∧ (0 : Nibble) = 0 ∧ 64 ≤ ((regs 0xFF 0).getV 0).toNat := by
  decide

theorem witness_DrwTwiceRestores : (0 : Reg) ≠ 15 ∧ (14 : Reg) ≠ 15 ∧ ∀ u v, State.reset.disp.pixel u v = false :=
  ⟨by decide, by decide, Display.pixel_off⟩

theorem witness_DrwTwiceRestoresAnyBuffer : (0 : Reg) ≠ 15 ∧ (14 : Reg) ≠ 15 := by decide

/-- The key clauses: the key of V1, another key, no key, and a register above 15. -/
theorem witness_KeySkipsCompareTheSample :
    (∃ k, ({ regs 0 15 with keyIn := some 15 } : State).keyIn = some k ∧ ((regs 0 15).getV 1).toNat = k.toNat) ∧
    (∀ k, ({ regs 0 15 with keyIn := some 0 } : State).keyIn = some k → ((regs 0 15).getV 1).toNat ≠ k.toNat) ∧
    (∀ k, (regs 0 15).keyIn = some k → ((regs 0 15).getV 1).toNat ≠ k.toNat) ∧
    (∀ k, ({ regs 0 16 with keyIn := some 0 } : State).keyIn = some k → ((regs 0 16).getV 1).toNat ≠ k.toNat) := by
  refine ⟨⟨15, rfl, rfl⟩, ?_, nofun, ?_⟩ <;> rintro _ ⟨⟩ <;> decide

theorem witness_OnlyListedInstructionsWriteRegisters :
    (∃ t, exec (.loadRegs 14) base = .next t) ∧ ¬ mayWriteRegister (.loadRegs 14) 15 ∧
    (∃ t, exec (.addReg 0 1) base = .next t) ∧ ¬ mayWriteRegister (.addReg 0 1) 1 :=
  ⟨⟨_, rfl⟩, by unfold mayWriteRegister; decide, ⟨_, rfl⟩, by unfold mayWriteRegister; decide⟩

theorem witness_EachStateHasItsOwnWriters :
    (∃ t, exec (.ldI 0x300) base = .next t ∧ t.I ≠ base.I) ∧ (∃ t, exec (.ldToDT 15) base = .next t ∧ t.DT ≠ base.DT) ∧
    (∃ t, exec (.ldToST 15) base = .next t ∧ t.ST ≠ base.ST) ∧
    (∃ t, exec (.call 0x300) base = .next t ∧ (t.SP ≠ base.SP ∨ t.stack ≠ base.stack)) ∧
    (∃ t, exec (.drw 0 0 1) (base.memWrite 0 0x80) = .next t ∧ t.disp ≠ (base.memWrite 0 0x80).disp) ∧
    (∃ t, exec (.storeRegs 15) base = .next t ∧ ¬ SameMemory base t) ∧
    (∃ t, exec (.ldKey 3) base = .next t ∧ t.mode ≠ base.mode) ∧ ¬ mayWritePc .cls := by
  refine ⟨⟨_, rfl, by decide⟩, ⟨_, rfl, by decide⟩, ⟨_, rfl, by decide⟩, ⟨_, rfl, by decide⟩, ⟨_, rfl, by decide⟩,
    ⟨_, rfl, fun h => ?_⟩, ⟨_, rfl, by decide⟩, id⟩
  exact absurd (h 15) (by decide)

/-- A step that halts, one for each bound, and one that does not. -/
theorem witness_OnlyStackBoundsHalt :
    (base.isHalted = false ∧ (ran 0x2300 { base with SP := 16 }).map (·.isHalted) = some true) ∧
    (ran 0x00EE base).map (·.isHalted) = some true ∧ (ran 0x2300 { base with SP := 15 }).map (·.isHalted) = some false := by
  decide

end Sys2Proof.Tests
end

section
/-! Jumps and register skips (41_control_flow.md R120, R123-R126): one rule for an assignment to pc, one for a skip, and
the next state of each instruction; O20, O22 and O23 are these put together. -/

namespace Sys2Proof.Machine

/-! ### Assigning pc and skipping -/

theorem State.onlyPcDiffers_setPc (s : State) (v : Word) : OnlyPcDiffers s (s.setPc v) :=
  ⟨rfl, State.memRead_congr (State.setPc_mem s v)⟩

theorem State.onlyPcDiffers_skipIf (s : State) (c : Bool) : OnlyPcDiffers s (s.skipIf c) :=
  s.onlyPcDiffers_setPc _

theorem State.skipIf_pc_of_holds (s : State) {p : Prop} [Decidable p] (h : p) :
    (s.skipIf (decide p)).pc.toNat = (s.pc.toNat + 2) % 65536 := by
  rw [State.skipIf_pc, decide_eq_true h, if_pos rfl, BitVec.toNat_add]
  rfl

theorem State.skipIf_pc_of_not (s : State) {p : Prop} [Decidable p] (h : ¬p) :
    (s.skipIf (decide p)).pc = s.pc := by
  rw [State.skipIf_pc, decide_eq_false h, if_neg Bool.false_ne_true]

theorem addrOperand_toNat (nnn : Addr12) : (addrOperand nnn).toNat = nnn.toNat :=
  BitVec.toNat_setWidth_of_le (by decide)

/-! ### The next state of each instruction -/

theorem exec_jp (nnn : Addr12) (s : State) : exec (.jp nnn) s = .next (s.setPc (addrOperand nnn)) := rfl

theorem exec_seByte (x : Reg) (nn : Byte) (s : State) :
    exec (.seByte x nn) s = .next (s.skipIf (decide (s.getV x = nn))) := rfl

theorem exec_sneByte (x : Reg) (nn : Byte) (s : State) :
    exec (.sneByte x nn) s = .next (s.skipIf (decide (s.getV x ≠ nn))) := rfl

theorem exec_seReg (x y : Reg) (s : State) :
    exec (.seReg x y) s = .next (s.skipIf (decide (s.getV x = s.getV y))) := rfl

theorem exec_sneReg (x y : Reg) (s : State) :
    exec (.sneReg x y) s = .next (s.skipIf (decide (s.getV x ≠ s.getV y))) := rfl

/-! ### The obligations -/

/-- Settles O20: JP assigns pc its zero-extended operand. -/
theorem jpSetsPc : Obligations.JpSetsPc := fun s nnn =>
  ⟨_, exec_jp nnn s, addrOperand_toNat nnn, s.onlyPcDiffers_setPc _⟩

/-- Settles O22: SE skips on equality, and SNE on its negation. -/
theorem byteSkipsCompare : Obligations.ByteSkipsCompare := by
  intro s x nn
  constructor
  · exact ⟨_, exec_seByte x nn s, s.onlyPcDiffers_skipIf _, s.skipIf_pc_of_holds, s.skipIf_pc_of_not⟩
  · exact ⟨_, exec_sneByte x nn s, s.onlyPcDiffers_skipIf _, s.skipIf_pc_of_holds,
      fun heq => s.skipIf_pc_of_not (not_not_intro heq)⟩

/-- Settles O23: as O22 with V[Y] for the byte; a register equals itself, so X = Y is the case of equal values. -/
theorem registerSkipsCompare : Obligations.RegisterSkipsCompare := by
  intro s x y
  have values_eq (hxy : x = y) : s.getV x = s.getV y := congrArg s.getV hxy
  constructor
  · exact ⟨_, exec_seReg x y s, s.onlyPcDiffers_skipIf _, s.skipIf_pc_of_holds, s.skipIf_pc_of_not,
      fun hxy => s.skipIf_pc_of_holds (values_eq hxy)⟩
  · have stays (heq : s.getV x = s.getV y) : (s.skipIf (decide (s.getV x ≠ s.getV y))).pc = s.pc :=
      s.skipIf_pc_of_not (not_not_intro heq)
    exact ⟨_, exec_sneReg x y s, s.onlyPcDiffers_skipIf _, s.skipIf_pc_of_holds, stays,
      fun hxy => stays (values_eq hxy)⟩

end Sys2Proof.Machine
end

section
/-! Register loads and the additions (42_alu.md R140-R142, R146): the frame of a register write, with and without a
flag, the sum and its carry in plain numbers, and the next state of each instruction; O31 and O33 are these put
together. -/

namespace Sys2Proof.Machine

/-! ### Writing V[x], and VF before it -/

theorem State.onlyRegistersDiffer_setV (s : State) (x : Reg) (v : Byte) : OnlyRegistersDiffer s (s.setV x v) :=
  ⟨rfl, State.memRead_congr (State.setV_mem s x v)⟩

theorem State.onlyRegistersDiffer_setFlagThenV (s : State) (x : Reg) (flag result : Byte) :
    OnlyRegistersDiffer s (s.setFlagThenV x flag result) :=
  ⟨rfl, State.memRead_congr (State.setFlagThenV_mem s x flag result)⟩

/-- The result is written last, so V[x] holds it for x = F too (40_cycle.md R108). -/
theorem State.getV_setFlagThenV_self (s : State) (x : Reg) (flag result : Byte) :
    (s.setFlagThenV x flag result).getV x = result := by
  rw [State.getV_setFlagThenV, if_pos rfl]

theorem State.getV_setFlagThenV_VF (s : State) {x : Reg} (flag result : Byte) (hx : x ≠ 15) :
    (s.setFlagThenV x flag result).getV 15 = flag := by
  rw [State.getV_setFlagThenV, if_neg hx.symm]
  exact if_pos rfl

theorem State.getV_setFlagThenV_of_ne (s : State) {x r : Reg} (flag result : Byte) (hx : r ≠ x) (hF : r ≠ 15) :
    (s.setFlagThenV x flag result).getV r = s.getV r := by
  rw [State.getV_setFlagThenV, if_neg hx]
  exact if_neg hF

/-! ### The sum and its carry -/

theorem sumResult_toNat (a b : Byte) : (sumResult a b).toNat = (a.toNat + b.toNat) % 256 :=
  BitVec.toNat_ofNat _ 8

theorem sumCarry_eq (a b : Byte) : sumCarry a b = if a.toNat + b.toNat > 255 then 1 else 0 := by
  simp only [sumCarry, flagByte, decide_eq_true_eq]

/-! ### The next state of each instruction -/

theorem exec_ldByte (x : Reg) (nn : Byte) (s : State) : exec (.ldByte x nn) s = .next (s.setV x nn) := rfl

theorem exec_addByte (x : Reg) (nn : Byte) (s : State) :
    exec (.addByte x nn) s = .next (s.setV x (sumResult (s.getV x) nn)) := rfl

theorem exec_ldReg (x y : Reg) (s : State) : exec (.ldReg x y) s = .next (s.setV x (s.getV y)) := rfl

theorem exec_addReg (x y : Reg) (s : State) :
    exec (.addReg x y) s =
      .next (s.setFlagThenV x (sumCarry (s.getV x) (s.getV y)) (sumResult (s.getV x) (s.getV y))) := rfl

/-! ### The obligations -/

/-- Settles O31: each of the three is one write of V[X], and ADD's value is the sum mod 256. -/
theorem loadsAndImmediateAdd : Obligations.LoadsAndImmediateAdd := by
  intro s x y nn
  have frame (v : Byte) : (∀ r, r ≠ x → (s.setV x v).getV r = s.getV r) ∧ OnlyRegistersDiffer s (s.setV x v) :=
    ⟨fun _ hr => s.getV_setV_of_ne v hr, s.onlyRegistersDiffer_setV x v⟩
  refine ⟨?ldByte, ?addByte, ?ldReg⟩
  case ldByte => exact ⟨_, exec_ldByte x nn s, s.getV_setV_self x nn, frame nn⟩
  case addByte =>
    have sum : ((s.setV x (sumResult (s.getV x) nn)).getV x).toNat = ((s.getV x).toNat + nn.toNat) % 256 := by
      rw [State.getV_setV_self, sumResult_toNat]
    exact ⟨_, exec_addByte x nn s, sum, frame _⟩
  case ldReg => exact ⟨_, exec_ldReg x y s, s.getV_setV_self x _, frame _⟩

/-- Settles O33: VF takes the carry and V[X], written after it, the sum. -/
theorem addSetsCarry : Obligations.AddSetsCarry := by
  intro s x y
  refine ⟨_, exec_addReg x y s, s.onlyRegistersDiffer_setFlagThenV x _ _, ?sum, ?carry, ?others⟩
  case sum => rw [State.getV_setFlagThenV_self, sumResult_toNat]
  case carry =>
    intro hx
    rw [State.getV_setFlagThenV_VF s _ _ hx, sumCarry_eq]
  case others => exact fun _ hrx hrF => s.getV_setFlagThenV_of_ne _ _ hrx hrF

end Sys2Proof.Machine
end

section
/-! Assignments to I (43_index_memory.md R170, R172): the frame of one, the glyph address in plain numbers, and the next
state of each of the two loads; O37 is these put together. -/

namespace Sys2Proof.Machine

/-! ### Assigning I -/

theorem State.onlyIndexDiffers_setI (s : State) (v : Word) : OnlyIndexDiffers s (s.setI v) :=
  ⟨rfl, State.memRead_congr (State.setI_mem s v)⟩

/-! ### The glyph address -/

/-- The mask is the remainder mod 16, so the sum is at most 15 * 5 and 16 bits hold it. -/
theorem glyphAddress_toNat (v : Byte) : (glyphAddress v).toNat = Config.fontBase + v.toNat % 16 * 5 := by
  have mask : (v &&& 0xF).toNat = v.toNat % 16 :=
    (BitVec.toNat_and v 0xF).trans (Nat.and_two_pow_sub_one_eq_mod v.toNat 4)
  rw [glyphAddress, mask, BitVec.toNat_ofNat]
  simp only [Config.fontBase, Config.glyphBytes]
  omega

/-- The last glyph, that of the digit F, begins at 0x04B. -/
theorem glyphAddress_le (v : Byte) : (glyphAddress v).toNat ≤ 0x04B := by
  rw [glyphAddress_toNat, Config.fontBase]
  omega

/-! ### The next state of each instruction -/

theorem exec_ldI (nnn : Addr12) (s : State) : exec (.ldI nnn) s = .next (s.setI (addrOperand nnn)) := rfl

theorem exec_ldF (x : Reg) (s : State) : exec (.ldF x) s = .next (s.setI (glyphAddress (s.getV x))) := rfl

/-! ### The obligation -/

/-- Settles O37: each load is one assignment to I, of the zero-extended operand or of the glyph's address. -/
theorem indexLoads : Obligations.IndexLoads := by
  intro s nnn x
  constructor
  · exact ⟨_, exec_ldI nnn s, addrOperand_toNat nnn, s.onlyIndexDiffers_setI _⟩
  · exact ⟨_, exec_ldF x s, glyphAddress_toNat _, glyphAddress_le _, s.onlyIndexDiffers_setI _⟩

end Sys2Proof.Machine
end

section
/-! Clearing the display (44_display.md R191, R195): the frame of an assignment to the buffer, the cleared buffer pixel by
pixel, and the next state of CLS; O44 is these put together. -/

namespace Sys2Proof.Machine

/-- The whole frame of a write to the buffer: the display alone may differ, and every byte of memory reads as before. -/
theorem State.onlyDisplayDiffers_setDisp (s : State) (d : Display) :
    s.setDisp d = { s with disp := (s.setDisp d).disp } ∧ SameMemory s (s.setDisp d) :=
  ⟨rfl, State.memRead_congr (State.setDisp_mem s d)⟩

theorem Display.pixel_clear (d : Display) (x y : Nat) : d.clear.pixel x y = false :=
  Display.pixel_off x y

theorem exec_cls (s : State) : exec .cls s = .next (s.setDisp s.disp.clear) := rfl

/-- Settles O44: CLS is one write of the cleared buffer. -/
theorem clsTurnsEveryPixelOff : Obligations.ClsTurnsEveryPixelOff := fun s =>
  ⟨_, exec_cls s, s.disp.pixel_clear, s.onlyDisplayDiffers_setDisp _⟩

end Sys2Proof.Machine
end

section
/-! The decoder and the encoder (30_encoding.md R71-R85): a packed word decodes by its format and its match value, a word
is packed again from its fields, and the words no table holds; O5, O6, O7, O8 and O9 are these put together. -/

namespace Sys2Proof

/-! ### Decoding a packed word, one rule for each format -/

section Formats

variable {v : Word}

theorem decodeWord_packA {build : Addr12 → Instr} (hv : v &&& 0xF000 ≠ 0) (hf : v.extractLsb' 0 12 = 0#12)
    (hl : tableT2.lookup (v &&& 0xF000) = some fun w => build (fieldNNN w)) (a : Addr12) :
    decodeWord (packA v a) = .instr (build a) := by
  rw [decodeWord_T2 (packA_match v a) hv hl, fieldNNN_packA v a hf]

theorem decodeWord_packXNN {build : Reg → Byte → Instr} (hv : v &&& 0xF000 ≠ 0)
    (hx : v.extractLsb' 8 4 = 0#4) (hn : v.extractLsb' 0 8 = 0#8)
    (hl : tableT2.lookup (v &&& 0xF000) = some fun w => build (fieldX w) (fieldNN w)) (x : Reg) (b : Byte) :
    decodeWord (packXNN v x b) = .instr (build x b) := by
  rw [decodeWord_T2 (packXNN_match v x b) hv hl, fieldX_packXNN v x b hx, fieldNN_packXNN v x b hn]

theorem decodeWord_packXYN {build : Reg → Reg → Nibble → Instr} (hv : v &&& 0xF000 ≠ 0)
    (hx : v.extractLsb' 8 4 = 0#4) (hy : v.extractLsb' 4 4 = 0#4) (hn : v.extractLsb' 0 4 = 0#4)
    (hl : tableT2.lookup (v &&& 0xF000) = some fun w => build (fieldX w) (fieldY w) (fieldN w)) (x y : Reg)
    (n : Nibble) : decodeWord (packXYN v x y n) = .instr (build x y n) := by
  rw [decodeWord_T2 (packXYN_match v x y n) hv hl, fieldX_packXYN v x y n hx, fieldY_packXYN v x y n hy,
    fieldN_packXYN v x y n hn]

theorem decodeWord_packXY {build : Reg → Reg → Instr} (hv : v &&& 0xF00F &&& 0xF000 ≠ 0)
    (hx : v.extractLsb' 8 4 = 0#4) (hy : v.extractLsb' 4 4 = 0#4)
    (h2 : (tableT2.lookup (v &&& 0xF00F &&& 0xF000)).isNone = true)
    (hl : tableT3.lookup (v &&& 0xF00F) = some fun w => build (fieldX w) (fieldY w)) (x y : Reg) :
    decodeWord (packXYN v x y 0) = .instr (build x y) := by
  rw [decodeWord_T3 (packXY_match v x y) hv h2 hl, fieldX_packXYN v x y 0 hx, fieldY_packXYN v x y 0 hy]

theorem decodeWord_packX {build : Reg → Instr} (hv : v &&& 0xF0FF &&& 0xF000 ≠ 0) (hx : v.extractLsb' 8 4 = 0#4)
    (h2 : (tableT2.lookup (v &&& 0xF0FF &&& 0xF000)).isNone = true)
    (h3 : (tableT3.lookup (v &&& 0xF0FF &&& 0xF00F)).isNone = true)
    (hl : tableT4.lookup (v &&& 0xF0FF) = some fun w => build (fieldX w)) (x : Reg) :
    decodeWord (packX v x) = .instr (build x) := by
  rw [decodeWord_T4 (packX_match v 0xF0FF x (by decide)) hv h2 h3 hl, fieldX_packX v x hx]

end Formats

/-- The decoder inverts the encoder, by the format of the instruction (30_encoding.md R72). -/
theorem decodeWord_encode (i : Instr) : decodeWord (encode i) = .instr i := by
  cases i with
  | cls | ret => rfl
  | jp a | call a | ldI a | jpV0 a => exact decodeWord_packA (by decide) (by decide) rfl a
  | seByte x b | sneByte x b | ldByte x b | addByte x b | rnd x b =>
    exact decodeWord_packXNN (by decide) (by decide) (by decide) rfl x b
  | drw x y n => exact decodeWord_packXYN (by decide) (by decide) (by decide) (by decide) rfl x y n
  | seReg x y | ldReg x y | orReg x y | andReg x y | xorReg x y | addReg x y | sub x y | shr x y | subn x y | shl x y
  | sneReg x y => exact decodeWord_packXY (by decide) (by decide) (by decide) rfl rfl x y
  | skp x | sknp x | ldFromDT x | ldKey x | ldToDT x | ldToST x | addI x | ldF x | ldB x | storeRegs x | loadRegs x =>
    exact decodeWord_packX (by decide) (by decide) rfl rfl rfl x

/-! ### Every instruction is well formed -/

@[simp] theorem Operand.inRange_reg (x : Reg) : (Operand.reg x.val).inRange = true := decide_eq_true x.isLt
@[simp] theorem Operand.inRange_byte (b : Byte) : (Operand.byte b.toNat).inRange = true := decide_eq_true b.isLt
@[simp] theorem Operand.inRange_addr (a : Addr12) : (Operand.addr a.toNat).inRange = true := decide_eq_true a.isLt
@[simp] theorem Operand.inRange_nibble (n : Nibble) : (Operand.nibble n.toNat).inRange = true := decide_eq_true n.isLt

theorem Instr.format_accepts_operands (i : Instr) : i.format.accepts i.operands = true := by
  cases i <;> rfl

theorem Instr.operands_inRange (i : Instr) : i.operands.all Operand.inRange = true := by
  cases i <;> simp [Instr.operands]

theorem Instr.wellFormed_all (i : Instr) : i.wellFormed = true := by
  rw [Instr.wellFormed, operandsWellFormed, i.format_accepts_operands, i.operands_inRange, Bool.and_true]

/-- Settles O5: the operand types keep every field in range, and each format's fields come back. -/
theorem decodeInvertsEncode : Obligations.DecodeInvertsEncode := fun i => ⟨i.wellFormed_all, decodeWord_encode i⟩

/-! ### Packing a word again from its match value and its fields -/

theorem packA_of_match {w v : Word} (h : w &&& 0xF000 = v) : packA v (fieldNNN w) = w := h ▸ packA_fields w
theorem packX_of_match {w v : Word} (h : w &&& 0xF0FF = v) : packX v (fieldX w) = w := h ▸ packX_fields w
theorem packXNN_of_match {w v : Word} (h : w &&& 0xF000 = v) : packXNN v (fieldX w) (fieldNN w) = w :=
  h ▸ packXNN_fields w
theorem packXY_of_match {w v : Word} (h : w &&& 0xF00F = v) : packXYN v (fieldX w) (fieldY w) 0 = w :=
  h ▸ packXY_fields w
theorem packXYN_of_match {w v : Word} (h : w &&& 0xF000 = v) : packXYN v (fieldX w) (fieldY w) (fieldN w) = w :=
  h ▸ packXYN_fields w

/-- A row of a dispatch table under its mask: a word that matches it is the encoding of the instruction it selects. -/
def RowEncodes (mask : Word) (row : Word × (Word → Instr)) : Prop := ∀ w, w &&& mask = row.1 → encode (row.2 w) = w

theorem tableT1_encodes : ∀ row ∈ tableT1, RowEncodes 0xFFFF row := by
  have match_eq {w v : Word} (h : w &&& 0xFFFF = v) : v = w := (h.symm.trans BitVec.and_allOnes)
  simp only [tableT1, List.forall_mem_cons]
  exact ⟨fun _ => match_eq, fun _ => match_eq, nofun⟩

theorem tableT2_encodes : ∀ row ∈ tableT2, RowEncodes 0xF000 row := by
  simp only [tableT2, List.forall_mem_cons]
  exact ⟨fun _ => packA_of_match, fun _ => packA_of_match, fun _ => packXNN_of_match, fun _ => packXNN_of_match,
    fun _ => packXNN_of_match, fun _ => packXNN_of_match, fun _ => packA_of_match, fun _ => packA_of_match,
    fun _ => packXNN_of_match, fun _ => packXYN_of_match, nofun⟩

theorem tableT3_encodes : ∀ row ∈ tableT3, RowEncodes 0xF00F row := by
  simp only [tableT3, List.forall_mem_cons]
  refine ⟨?_, ?_, ?_, ?_, ?_, ?_, ?_, ?_, ?_, ?_, ?_, nofun⟩ <;> exact fun _ => packXY_of_match

theorem tableT4_encodes : ∀ row ∈ tableT4, RowEncodes 0xF0FF row := by
  simp only [tableT4, List.forall_mem_cons]
  refine ⟨?_, ?_, ?_, ?_, ?_, ?_, ?_, ?_, ?_, ?_, ?_, nofun⟩ <;> exact fun _ => packX_of_match

theorem dispatchTables_encode : ∀ t ∈ dispatchTables, ∀ row ∈ t.2, RowEncodes t.1 row := by
  simp only [dispatchTables, List.forall_mem_cons]
  exact ⟨tableT1_encodes, tableT2_encodes, tableT3_encodes, tableT4_encodes, nofun⟩

/-- Settles O6: the row that answered gives the word back. -/
theorem encodeInvertsDecode : Obligations.EncodeInvertsDecode := by
  intro w i h
  obtain ⟨t, ht, hi⟩ := lookupTables_some (decodeWord_eq_instr.mp h)
  obtain ⟨row, hrow, hm, rfl⟩ := lookupTable_some hi
  exact dispatchTables_encode t ht row hrow w hm

/-! ### Bytes -/

theorem decodeBytes_of_instr {hi lo : Byte} {i : Instr} (h : decodeWord (wordOfBytes hi lo) = .instr i)
    (rest : List Byte) : decodeBytes (hi :: lo :: rest) = .ok (i, rest) := by
  rw [decodeBytes, h]

theorem decodeBytes_of_unrecognized {hi lo : Byte} {w : Word} (h : decodeWord (wordOfBytes hi lo) = .unrecognized w)
    (rest : List Byte) : decodeBytes (hi :: lo :: rest) = .error (.unrecognized w) := by
  rw [decodeBytes, h]

/-- Settles O7: two bytes are one word, and a word is its two bytes. -/
theorem decodeReadsOneWordOfBytes : Obligations.DecodeReadsOneWordOfBytes := by
  refine ⟨?encoded, ?short, ?unrecognized⟩
  case encoded =>
    intro i rest
    exact decodeBytes_of_instr (by rw [wordOfBytes_highByte_lowByte, decodeWord_encode]) rest
  case short =>
    intro bs h
    match bs, h with
    | [], _ | [_], _ => rfl
  case unrecognized =>
    intro hi lo rest w h
    obtain ⟨rfl, -⟩ := decodeWord_eq_unrecognized.mp h
    exact decodeBytes_of_unrecognized (by rw [wordOfBytes_eq_append, h]) rest

/-! ### The unrecognized space: the words that match no row (30_encoding.md R81) -/

theorem lookupTable_eq_none {w mask : Word} {table : DispatchTable} :
    lookupTable w mask table = none ↔ ∀ row ∈ table, w &&& mask ≠ row.1 := by
  induction table with
  | nil => simp [lookupTable]
  | cons row rest ih =>
    rw [lookupTable, List.forall_mem_cons, ← ih]
    by_cases h : w &&& mask = row.1 <;> simp [h]

theorem lookupTables_eq_none {w : Word} {tables : List (Word × DispatchTable)} :
    lookupTables w tables = none ↔ ∀ t ∈ tables, lookupTable w t.1 t.2 = none := by
  induction tables with
  | nil => simp [lookupTables]
  | cons t rest ih =>
    rw [lookupTables, List.forall_mem_cons, ← ih]
    cases lookupTable w t.1 t.2 <;> simp

theorem decodeWord_unrecognized_iff (w : Word) :
    decodeWord w = .unrecognized w ↔ ∀ t ∈ dispatchTables, ∀ row ∈ t.2, w &&& t.1 ≠ row.1 := by
  simp only [decodeWord_eq_unrecognized, true_and, lookupTables_eq_none, lookupTable_eq_none]

/-! The masks in plain numbers: the op nibble, alone or with the low nibble or the low byte. -/

theorem and_F000_toNat (w : Word) : (w &&& 0xF000#16).toNat = w.toNat / 4096 * 4096 := by
  have shifts : w &&& 0xF000#16 = (w >>> 12) <<< 12 := by
    ext j hj
    interval_cases j <;> simp
  have hw := w.isLt
  rw [shifts, BitVec.toNat_shiftLeft, BitVec.toNat_ushiftRight, Nat.shiftRight_eq_div_pow, Nat.shiftLeft_eq]
  exact Nat.mod_eq_of_lt (by omega)

/-- The bits of a mask add up, and those below the op nibble are a remainder. -/
theorem and_opMask_toNat (w : Word) (k : Nat) (hk : k ≤ 12) :
    (w &&& (0xF000#16 ||| BitVec.ofNat 16 (2 ^ k - 1))).toNat = w.toNat / 4096 * 4096 + w.toNat % 2 ^ k := by
  have hpow : 2 ^ k ≤ 2 ^ 12 := Nat.pow_le_pow_right (by decide) hk
  have low : (w &&& BitVec.ofNat 16 (2 ^ k - 1)).toNat = w.toNat % 2 ^ k := by
    rw [BitVec.toNat_and, BitVec.toNat_ofNat, Nat.mod_eq_of_lt (by omega), Nat.and_two_pow_sub_one_eq_mod]
  have disjoint : (w &&& 0xF000#16) &&& (w &&& BitVec.ofNat 16 (2 ^ k - 1)) = 0#16 := by
    have masks : 0xF000#16 &&& BitVec.ofNat 16 (2 ^ k - 1) = 0#16 := by
      clear low hpow
      interval_cases k <;> rfl
    rw [BitVec.and_assoc, ← BitVec.and_assoc _ w, BitVec.and_comm _ w, BitVec.and_assoc w, masks, BitVec.and_zero,
      BitVec.and_zero]
  rw [BitVec.and_or_distrib_left, ← BitVec.add_eq_or_of_and_eq_zero _ _ disjoint,
    BitVec.toNat_add_of_and_eq_zero disjoint, and_F000_toNat, low]

theorem and_F000_eq_iff (w v : Word) : w &&& 0xF000 = v ↔ w.toNat / 4096 * 4096 = v.toNat := by
  rw [← BitVec.toNat_inj]
  exact (and_F000_toNat w).congr_left

theorem and_F00F_eq_iff (w v : Word) : w &&& 0xF00F = v ↔ w.toNat / 4096 * 4096 + w.toNat % 16 = v.toNat := by
  rw [← BitVec.toNat_inj]
  exact (and_opMask_toNat w 4 (by decide)).congr_left

theorem and_F0FF_eq_iff (w v : Word) : w &&& 0xF0FF = v ↔ w.toNat / 4096 * 4096 + w.toNat % 256 = v.toNat := by
  rw [← BitVec.toNat_inj]
  exact (and_opMask_toNat w 8 (by decide)).congr_left

theorem tableT1_misses_iff (w : Word) :
    (∀ row ∈ tableT1, w &&& 0xFFFF ≠ row.1) ↔ w ≠ 0x00E0 ∧ w ≠ 0x00EE := by
  simp only [tableT1, List.forall_mem_cons, show w &&& 0xFFFF = w from BitVec.and_allOnes]
  simp

theorem tableT2_misses_iff (w : Word) :
    (∀ row ∈ tableT2, w &&& 0xF000 ≠ row.1) ↔
      w.toNat / 4096 ∉ [1, 2, 3, 4, 6, 7, 0xA, 0xB, 0xC, 0xD] := by
  simp only [tableT2, List.forall_mem_cons, ne_eq, and_F000_eq_iff]
  simp
  omega

theorem tableT3_misses_iff (w : Word) :
    (∀ row ∈ tableT3, w &&& 0xF00F ≠ row.1) ↔
      (w.toNat / 4096 = 5 → w.toNat % 16 ≠ 0) ∧
      (w.toNat / 4096 = 8 → w.toNat % 16 ∈ [8, 9, 0xA, 0xB, 0xC, 0xD, 0xF]) ∧
      (w.toNat / 4096 = 9 → w.toNat % 16 ≠ 0) := by
  simp only [tableT3, List.forall_mem_cons, ne_eq, and_F00F_eq_iff]
  simp
  omega

theorem tableT4_misses_iff (w : Word) :
    (∀ row ∈ tableT4, w &&& 0xF0FF ≠ row.1) ↔
      (w.toNat / 4096 = 0xE → w.toNat % 256 ∉ [0x9E, 0xA1]) ∧
      (w.toNat / 4096 = 0xF → w.toNat % 256 ∉ [0x07, 0x0A, 0x15, 0x18, 0x1E, 0x29, 0x33, 0x55, 0x65]) := by
  simp only [tableT4, List.forall_mem_cons, ne_eq, and_F0FF_eq_iff]
  simp
  omega

/-- Settles O8: what each of the four tables misses, in plain numbers; then one case for each op nibble. -/
theorem unrecognizedWordsExactly : Obligations.UnrecognizedWordsExactly := by
  intro w
  have op_lt : w.toNat / 4096 < 16 := Nat.div_lt_of_lt_mul w.isLt
  have not_cls : w.toNat / 4096 ≠ 0 → w ≠ 0x00E0 := by rintro h rfl; exact h rfl
  have not_ret : w.toNat / 4096 ≠ 0 → w ≠ 0x00EE := by rintro h rfl; exact h rfl
  rw [decodeWord_unrecognized_iff]
  simp only [dispatchTables, List.forall_mem_cons, tableT1_misses_iff, tableT2_misses_iff, tableT3_misses_iff,
    tableT4_misses_iff]
  generalize w.toNat / 4096 = op at op_lt not_cls not_ret ⊢
  interval_cases op <;> simp_all

/-! ### Words written out -/

/-- Settles O9: the decoded words are encodings, the others stand in the unrecognized space. -/
theorem wordsOfTheOpcodeMapDecode : Obligations.WordsOfTheOpcodeMapDecode :=
  ⟨decodeWord_encode .ret, decodeWord_encode (.jp 0xABC), decodeWord_encode (.ldByte 10 0x42),
    decodeWord_encode (.sub 1 2), decodeWord_encode (.shl 15 15), decodeWord_encode (.drw 1 2 15),
    decodeWord_encode (.skp 1), decodeWord_encode (.loadRegs 3), (unrecognizedWordsExactly _).mpr (by decide),
    (unrecognizedWordsExactly _).mpr (by decide), (unrecognizedWordsExactly _).mpr (by decide),
    (unrecognizedWordsExactly _).mpr (by decide)⟩

end Sys2Proof
end

section
/-! Whole-machine rules: a step by the mode it finds (40_cycle.md R109), what every instruction keeps, the invariant, the
halts (60_exceptions.md R231-R233) and the call stack above SP (10_state.md R28); O3, O17, O18, O30 and O54 are these put
together. -/

namespace Sys2Proof.Machine

/-! ### A step, by the mode it finds -/

section Mode

variable {s : State}

theorem step_of_halted {c : HaltCause} {a : Word} (h : s.mode = .halted c a) :
    step s = .next (s.sampleInput.setDiag false) := by
  simp only [step, stepCycle, cycle, State.sampleInput_mode, h]

theorem step_of_waiting {x : Reg} (h : s.mode = .waitingForKey x) :
    step s = .next ((s.sampleInput.setDiag false).pollKey x) := by
  simp only [step, stepCycle, cycle, State.sampleInput_mode, h]

theorem step_of_instr {i : Instr} (h : s.mode = .running) (hd : decodeWord s.fetchWord = .instr i) :
    step s = exec i s.afterFetch := by
  simp only [step, stepCycle, cycle, State.sampleInput_mode, h, runCycle, State.fetchWord_sampled, hd]

theorem step_of_unrecognized {w : Word} (h : s.mode = .running) (hd : decodeWord s.fetchWord = .unrecognized w) :
    step s = .next (s.afterFetch.setDiag true) := by
  simp only [step, stepCycle, cycle, State.sampleInput_mode, h, runCycle, State.fetchWord_sampled, hd]

end Mode

/-! ### Runs of bytes change memory alone -/

section Stores

variable (s : State) (a : Nat) (l : List Byte)

@[simp] theorem State.memWriteList_SP : (s.memWriteList a l).SP = s.SP := by
  rw [State.memWriteList_frame]

@[simp] theorem State.memWriteList_mode : (s.memWriteList a l).mode = s.mode := by
  rw [State.memWriteList_frame]

end Stores

/-! ### CALL and RET: the bound or an entry (41_control_flow.md R121, R122) -/

section CallRet

variable {s t : State}

theorem exec_ret_cases (h : exec .ret s = .next t) :
    (s.SP = 0 ∧ t = s.raiseHalt .stackUnderflow) ∨ ∃ hocc, t = s.popPc hocc := by
  simp only [exec, execRet] at h
  split at h
  · rename_i h0
    cases h
    exact .inl ⟨h0, rfl⟩
  · split at h
    · rename_i hocc
      cases h
      exact .inr ⟨hocc, rfl⟩
    · cases h

theorem exec_call_cases {nnn : Addr12} (h : exec (.call nnn) s = .next t) :
    (s.SP = 16 ∧ t = s.raiseHalt .stackOverflow) ∨ ∃ hfree, t = (s.pushPc hfree).setPc (addrOperand nnn) := by
  simp only [exec, execCall] at h
  split at h
  · rename_i h16
    cases h
    exact .inl ⟨h16, rfl⟩
  · split at h
    · rename_i hfree
      cases h
      exact .inr ⟨hfree, rfl⟩
    · cases h

end CallRet

/-! ### The invariant -/

section Invariant

variable {s t : State} {i : Instr}

theorem State.modeRecordOk_of_running (h : s.mode = .running) : s.modeRecordOk = true := by
  rw [State.modeRecordOk, h]

theorem State.inv_of_running (hmem : Memory.wf s.mem = true) (hsp : s.SP ≤ 16) (hmode : s.mode = .running) : s.Inv :=
  ⟨hmem, hsp, State.modeRecordOk_of_running hmode⟩

/-- LD Vx,K begins a wait behind its own word (45_timers_keys.md R213). -/
theorem State.modeRecordOk_wait {x : Reg} (hw : decodeWord (s.wordAt (s.pc - 2)) = .instr (.ldKey x)) :
    (s.setMode (.waitingForKey x)).modeRecordOk = true :=
  decide_eq_true hw

theorem State.modeRecordOk_underflow (hsp : s.SP = 0) (hw : decodeWord (s.wordAt (s.pc - 2)) = .instr .ret) :
    (s.raiseHalt .stackUnderflow).modeRecordOk = true :=
  Bool.and_eq_true_iff.mpr ⟨Bool.and_eq_true_iff.mpr ⟨decide_eq_true rfl, decide_eq_true hsp⟩, decide_eq_true hw⟩

theorem State.modeRecordOk_overflow {nnn : Addr12} (hsp : s.SP = 16)
    (hw : decodeWord (s.wordAt (s.pc - 2)) = .instr (.call nnn)) :
    (s.raiseHalt .stackOverflow).modeRecordOk = true := by
  have hw' : decodeWord ((s.raiseHalt .stackOverflow).wordAt (s.pc - 2)) = .instr (.call nnn) := hw
  simp only [State.modeRecordOk, State.raiseHalt_mode, State.raiseHalt_pc, State.raiseHalt_SP, hsp, hw',
    decide_true, Bool.and_self]

/-- An instruction that runs right behind its own word keeps the invariant. -/
theorem exec_keeps_inv (hmem : Memory.wf s.mem = true) (hsp : s.SP ≤ 16) (hmode : s.mode = .running)
    (hw : decodeWord (s.wordAt (s.pc - 2)) = .instr i) (h : exec i s = .next t) : t.Inv := by
  cases exec_effect h with
  | registers | index | counter | delayTimer | soundTimer | display => exact State.inv_of_running hmem hsp hmode
  | stores a l =>
    exact State.inv_of_running (State.memWriteList_wf hmem a l) (by rwa [State.memWriteList_SP])
      (by rwa [State.memWriteList_mode])
  | wait x hi => exact ⟨hmem, hsp, State.modeRecordOk_wait (hi ▸ hw)⟩
  | underflow hi h0 => exact ⟨hmem, hsp, State.modeRecordOk_underflow h0 (hi ▸ hw)⟩
  | overflow nnn hi h16 => exact ⟨hmem, hsp, State.modeRecordOk_overflow h16 (hi ▸ hw)⟩
  | pop hi h0 hfree =>
    have : s.SP - 1 ≤ 16 := by bv_omega
    exact State.inv_of_running hmem this hmode
  | push nnn hi hfree =>
    have : s.SP + 1 ≤ 16 := by bv_omega
    exact State.inv_of_running hmem this hmode

/-- The word behind which an instruction runs is the one that was fetched. -/
theorem State.wordAt_afterFetch (s : State) : s.afterFetch.wordAt (s.afterFetch.pc - 2) = s.fetchWord :=
  congrArg s.wordAt (by simp)

/-- With SP in its legal range every instruction answers a next state. -/
theorem exec_completes (hsp : s.SP ≤ 16) (i : Instr) : ∃ t, exec i s = .next t := by
  cases i with
  | ret =>
    by_cases h : s.SP = 0
    · exact ⟨_, exec_ret_empty h⟩
    · exact ⟨_, exec_ret_occupied h (by bv_omega)⟩
  | call nnn =>
    by_cases h : s.SP = 16
    · exact ⟨_, exec_call_full h nnn⟩
    · exact ⟨_, exec_call_free (by bv_omega) nnn⟩
  | _ => exact ⟨_, rfl⟩

end Invariant

/-- Settles O3: nothing is listed in memory, the stack is empty, and the core runs. -/
theorem resetMeetsInvariant : Obligations.ResetMeetsInvariant := fun _ =>
  State.inv_of_running rfl (by decide : Config.spReset ≤ 16) rfl

/-- Settles O18: by what the step found (40_cycle.md R109); only a RUNNING step with an instruction changes what the
invariant speaks of, but for the end of a wait. -/
theorem stepKeepsInvariant : Obligations.StepKeepsInvariant := by
  rintro s t ⟨hmem, hsp, hrec⟩ h
  rcases step_cases s with ⟨c, a, -, hs⟩ | ⟨x, -, hs⟩ | ⟨hm, i, hd, hs⟩ | ⟨hm, w, -, hs⟩
  · cases hs.symm.trans h
    exact ⟨hmem, hsp, hrec⟩
  · cases hs.symm.trans h
    cases hk : (s.sampleInput.setDiag false).keyIn with
    | none =>
      rw [State.pollKey_none hk]
      exact ⟨hmem, hsp, hrec⟩
    | some k =>
      rw [State.pollKey_some hk]
      exact State.inv_of_running hmem hsp rfl
  · exact exec_keeps_inv (s := s.afterFetch) hmem hsp hm (by rw [State.wordAt_afterFetch, hd]) (hs ▸ h)
  · cases hs.symm.trans h
    exact State.inv_of_running hmem hsp hm

/-- Settles O17: in each mode the step is a next state, an instruction's because SP is in 0..16. -/
theorem everyCycleCompletes : Obligations.EveryCycleCompletes := by
  rintro s ⟨-, hsp, -⟩
  rcases step_cases s with ⟨c, a, -, hs⟩ | ⟨x, -, hs⟩ | ⟨-, i, -, hs⟩ | ⟨-, w, -, hs⟩
  · exact ⟨_, hs⟩
  · exact ⟨_, hs⟩
  · rw [hs]
    exact exec_completes (s := s.afterFetch) hsp i
  · exact ⟨_, hs⟩

/-! ### The halts -/

theorem State.isHalted_of_running {s : State} (h : s.mode = .running) : s.isHalted = false := by
  rw [State.isHalted, h]

theorem exec_isHalted_iff {s t : State} {i : Instr} (hmode : s.mode = .running) (h : exec i s = .next t) :
    t.isHalted = true ↔ (s.SP = 16 ∧ ∃ nnn, i = .call nnn) ∨ (s.SP = 0 ∧ i = .ret) := by
  constructor
  · intro hh
    have not_running (ht : t.mode = .running) : False := by simp [State.isHalted_of_running ht] at hh
    cases exec_effect h with
    | registers | index | counter | delayTimer | soundTimer | display | pop | push => exact (not_running hmode).elim
    | stores a l => exact (not_running ((s.memWriteList_mode a l).trans hmode)).elim
    | wait => cases hh
    | underflow hi h0 => exact .inr ⟨h0, hi⟩
    | overflow nnn hi h16 => exact .inl ⟨h16, nnn, hi⟩
  · rintro (⟨h16, nnn, rfl⟩ | ⟨h0, rfl⟩)
    · cases (exec_call_full h16 nnn).symm.trans h
      rfl
    · cases (exec_ret_empty h0).symm.trans h
      rfl

theorem State.pollKey_isHalted {s : State} {x : Reg} (h : s.isHalted = false) : (s.pollKey x).isHalted = false := by
  cases hk : s.keyIn with
  | none => rwa [State.pollKey_none hk]
  | some k =>
    rw [State.pollKey_some hk]
    rfl

/-- Settles O54: of the steps of a core that is not halted, only an instruction's can halt it. -/
theorem onlyStackBoundsHalt : Obligations.OnlyStackBoundsHalt := by
  intro s t hs0 h
  rcases step_cases s with ⟨c, a, hm, -⟩ | ⟨x, hm, hs⟩ | ⟨hm, i, hd, hs⟩ | ⟨hm, w, hd, hs⟩
  · simp [State.isHalted, hm] at hs0
  · cases hs.symm.trans h
    have : ((s.sampleInput.setDiag false).pollKey x).isHalted = false := State.pollKey_isHalted hs0
    simp [this, hm]
  · rw [exec_isHalted_iff (s := s.afterFetch) hm (hs ▸ h)]
    simp [hm, hd]
  · cases hs.symm.trans h
    have : (s.afterFetch.setDiag true).isHalted = false := State.isHalted_of_running hm
    simp [this, hd]

/-! ### The call stack from SP on is unobservable -/

/-- The same state with other stack contents. -/
def State.withStack (st : Vector Word 16) (s : State) : State := { s with stack := st }

section StaleStack

variable (st : Vector Word 16) {s u : State} {i : Instr}

theorem State.storeRegsAt_withStack (s : State) (x : Reg) :
    (s.withStack st).storeRegsAt x = (s.storeRegsAt x).withStack st :=
  List.foldl_hom (State.withStack st) fun _ _ => rfl

theorem State.loadRegsAt_withStack (s : State) (x : Reg) :
    (s.withStack st).loadRegsAt x = (s.loadRegsAt x).withStack st :=
  List.foldl_hom (State.withStack st) fun _ _ => rfl

theorem drwResult_withStack (s : State) (x y : Reg) (n : Nibble) :
    drwResult x y n (s.withStack st) = drwResult x y n s := by
  rw [drwResult, drwResult, spriteRows_congr (s := s) (t := s.withStack st) rfl rfl]
  rfl

/-- Whether an instruction uses the call stack: CALL and RET do (10_state.md R28). -/
def usesStack : Instr → Bool
  | .call _ | .ret => true
  | _ => false

/-- No other instruction reads or writes the call stack. -/
theorem exec_withStack (hi : usesStack i = false) (h : exec i s = .next u) :
    exec i (s.withStack st) = .next (u.withStack st) ∧ u.stack = s.stack ∧ u.SP = s.SP := by
  cases i with
  | call | ret => cases hi
  | storeRegs x =>
    cases h
    refine ⟨congrArg Host.Outcome.next (s.storeRegsAt_withStack st x), ?_, ?_⟩ <;> rw [State.storeRegsAt_frame]
  | loadRegs x =>
    cases h
    refine ⟨congrArg Host.Outcome.next (s.loadRegsAt_withStack st x), ?_, ?_⟩ <;> rw [State.loadRegsAt_frame]
  | drw x y n =>
    cases h
    refine ⟨?_, rfl, rfl⟩
    simp only [exec, execDrw, drwResult_withStack]
    rfl
  | _ =>
    cases h
    exact ⟨rfl, rfl, rfl⟩

variable {st}

theorem sameButStaleStack_withStack (h : ∀ k : Fin 16, k.val < s.SP.toNat → st[k] = s.stack[k]) :
    SameButStaleStack s (s.withStack st) :=
  ⟨rfl, h⟩

/-- Where there is an entry to pop, SP - 1 does not wrap. -/
theorem pred_lt_of_occupied {sp : Byte} (hocc : (sp - 1).toNat < 16) : (sp - 1).toNat < sp.toNat := by bv_omega

/-- RET reads the entry below SP, an occupied one. -/
theorem exec_ret_stale (hst : ∀ k : Fin 16, k.val < s.SP.toNat → st[k] = s.stack[k]) (h : exec .ret s = .next u) :
    ∃ v, exec .ret (s.withStack st) = .next v ∧ SameButStaleStack u v := by
  rcases exec_ret_cases h with ⟨h0, rfl⟩ | ⟨hocc, rfl⟩
  · exact ⟨_, exec_ret_empty (s := s.withStack st) h0, sameButStaleStack_withStack hst⟩
  · have hlt : (s.SP - 1).toNat < s.SP.toNat := pred_lt_of_occupied hocc
    have h0 : s.SP ≠ 0 := fun h0 => Nat.not_lt_zero _ (h0 ▸ hlt)
    have entry : st[(s.SP - 1).toNat] = s.stack[(s.SP - 1).toNat] := hst ⟨_, hocc⟩ hlt
    have pop : (s.withStack st).popPc hocc = (s.popPc hocc).withStack st := by
      simp only [State.popPc, State.withStack, entry]
    exact ⟨_, exec_ret_occupied (s := s.withStack st) h0 hocc,
      pop ▸ sameButStaleStack_withStack fun k hk => hst k (hk.trans hlt)⟩

/-- CALL writes the first entry that is not occupied, the same in both states. -/
theorem exec_call_stale {nnn : Addr12} (hst : ∀ k : Fin 16, k.val < s.SP.toNat → st[k] = s.stack[k])
    (h : exec (.call nnn) s = .next u) :
    ∃ v, exec (.call nnn) (s.withStack st) = .next v ∧ SameButStaleStack u v := by
  rcases exec_call_cases h with ⟨h16, rfl⟩ | ⟨hfree, rfl⟩
  · exact ⟨_, exec_call_full (s := s.withStack st) h16 nnn, sameButStaleStack_withStack hst⟩
  · refine ⟨_, exec_call_free (s := s.withStack st) hfree nnn, rfl, fun k hk => ?_⟩
    have hk' : k.val < s.SP.toNat + 1 := by
      rw [State.setPc_SP, State.pushPc_SP] at hk
      bv_omega
    show (st.set s.SP.toNat s.pc)[k.val] = (s.stack.set s.SP.toNat s.pc)[k.val]
    by_cases hks : s.SP.toNat = k.val
    · simp [hks]
    · rw [Vector.getElem_set_ne _ _ hks, Vector.getElem_set_ne _ _ hks]
      exact hst k (by omega)

/-- The occupied entries are all an instruction reads of the stack. -/
theorem exec_stale (hst : ∀ k : Fin 16, k.val < s.SP.toNat → st[k] = s.stack[k]) (h : exec i s = .next u) :
    ∃ v, exec i (s.withStack st) = .next v ∧ SameButStaleStack u v := by
  cases hi : usesStack i with
  | false =>
    obtain ⟨hv, hstack, hSP⟩ := exec_withStack st hi h
    exact ⟨_, hv, sameButStaleStack_withStack (by rwa [hstack, hSP])⟩
  | true =>
    cases i with
    | ret => exact exec_ret_stale hst h
    | call nnn => exact exec_call_stale hst h
    | _ => cases hi

end StaleStack

/-- Settles O30: a step acts on the two states alike, by the mode it finds. It does not need SP to be in
range: above 16 the users of the stack fault. -/
theorem staleStackEntriesAreUnobservable : Obligations.StaleStackEntriesAreUnobservable := by
  rintro s t u - ⟨ht, hst⟩ h
  generalize t.stack = st at ht hst
  obtain rfl : t = s.withStack st := ht
  rcases step_cases s with ⟨c, a, hm, hs⟩ | ⟨x, hm, hs⟩ | ⟨hm, i, hd, hs⟩ | ⟨hm, w, hd, hs⟩
  · cases hs.symm.trans h
    exact ⟨_, step_of_halted (s := s.withStack st) hm, sameButStaleStack_withStack hst⟩
  · cases hs.symm.trans h
    refine ⟨_, step_of_waiting (s := s.withStack st) hm, ?_⟩
    cases hk : (s.sampleInput.setDiag false).keyIn with
    | none =>
      rw [State.pollKey_none hk, State.pollKey_none (s := (s.withStack st).sampleInput.setDiag false) hk]
      exact sameButStaleStack_withStack hst
    | some k =>
      rw [State.pollKey_some hk, State.pollKey_some (s := (s.withStack st).sampleInput.setDiag false) hk]
      exact sameButStaleStack_withStack hst
  · rw [step_of_instr (s := s.withStack st) hm hd]
    exact exec_stale (s := s.afterFetch) hst (hs ▸ h)
  · cases hs.symm.trans h
    exact ⟨_, step_of_unrecognized (s := s.withStack st) hm hd, sameButStaleStack_withStack hst⟩

end Sys2Proof.Machine
end

section
/-! Reset and launch (70_reset_and_hazards.md R260-R264): the reset state field by field, and memory after the load of a
font and a program; O1, O2 and O4 are these put together. -/

namespace Sys2Proof.Machine

theorem State.resetWith_memRead (p : Config.ResetParams) (a : Nat) : (State.resetWith p).memRead a = 0 := rfl

theorem State.resetWith_wf (p : Config.ResetParams) : Memory.wf (State.resetWith p).mem = true := rfl

/-- Settles O1: memory lists nothing, and every other field is the parameter or the constant. -/
theorem resetStateForEveryParameter : Obligations.ResetStateForEveryParameter := fun p =>
  ⟨rfl, rfl, rfl, Display.pixel_off, State.resetWith_memRead p, rfl, rfl, rfl, rfl, rfl⟩

/-! ### The load -/

theorem fontWellFormed_iff (font : List Byte) : fontWellFormed font = true ↔ font.length = 80 := by
  simp [fontWellFormed, Config.fontGlyphs, Config.glyphBytes]

theorem imageWellFormed_iff (program : List Byte) : imageWellFormed program = true ↔ program.length ≤ 3584 :=
  decide_eq_true_iff

theorem State.boot_eq_some_iff {p : Config.ResetParams} {font program : List Byte} {s : State} :
    State.boot p font program = some s ↔
      (font.length = 80 ∧ program.length ≤ 3584) ∧ s = (State.resetWith p).load font program := by
  rw [State.boot, ← fontWellFormed_iff, ← imageWellFormed_iff, ← Bool.and_eq_true]
  split
  · rename_i hpremises
    simp [hpremises, eq_comm]
  · rename_i hpremises
    simp [hpremises]

theorem State.boot_isSome_iff {p : Config.ResetParams} {font program : List Byte} :
    (State.boot p font program).isSome = true ↔ font.length = 80 ∧ program.length ≤ 3584 := by
  simp [Option.isSome_iff_exists, State.boot_eq_some_iff]

section Load

variable (s : State) (font program : List Byte)

theorem State.load_frame : s.load font program = { s with mem := (s.load font program).mem } := by
  rw [State.load, State.memWriteList_frame, State.memWriteList_frame s]

variable {s font program} (hwf : Memory.wf s.mem = true)
include hwf

theorem State.load_wf : Memory.wf (s.load font program).mem = true :=
  State.memWriteList_wf (State.memWriteList_wf hwf _ _) _ _

/-- The program stands from 0x200 on. -/
theorem State.memRead_load_program (hprog : program.length ≤ 3584) {j : Nat} (hj : j < program.length) :
    (s.load font program).memRead (0x200 + j) = program[j] :=
  State.memRead_memWriteList_inside (State.memWriteList_wf hwf _ _) (by omega) hj

/-- Below the program and behind it the load leaves what the font's load left. -/
theorem State.memRead_load_outside (hprog : program.length ≤ 3584) {a : Nat} (ha : a < 4096)
    (hout : a < 0x200 ∨ 0x200 + program.length ≤ a) :
    (s.load font program).memRead a = (s.memWriteList Config.fontBase font).memRead a :=
  State.memRead_memWriteList_outside (State.memWriteList_wf hwf _ _) fun j hj => by
    rw [Config.progBase]
    omega

/-- The font stands from 0x000 on: the program does not reach it. -/
theorem State.memRead_load_font (hfont : font.length = 80) (hprog : program.length ≤ 3584) {j : Nat} (hj : j < 80) :
    (s.load font program).memRead j = font[j] := by
  rw [State.memRead_load_outside hwf hprog (by omega) (by omega)]
  have := State.memRead_memWriteList_inside hwf (a := Config.fontBase) (l := font) (by omega) (hfont ▸ hj)
  rwa [Config.fontBase, Nat.zero_add] at this

/-- Everywhere else the load leaves memory. -/
theorem State.memRead_load_rest (hfont : font.length = 80) (hprog : program.length ≤ 3584) {a : Nat} (ha : a < 4096)
    (hlow : 80 ≤ a) (hout : a < 0x200 ∨ 0x200 + program.length ≤ a) : (s.load font program).memRead a = s.memRead a := by
  rw [State.memRead_load_outside hwf hprog ha hout]
  refine State.memRead_memWriteList_outside hwf fun j hj => ?_
  rw [Config.fontBase]
  omega

end Load

/-- Settles O4: a launch is reset and the load, under the launch premises. -/
theorem bootLoadsFontAndProgram : Obligations.BootLoadsFontAndProgram := by
  intro p font program
  refine ⟨State.boot_isSome_iff, fun s hs => ?_⟩
  obtain ⟨⟨hfont, hprog⟩, rfl⟩ := State.boot_eq_some_iff.mp hs
  have hwf := State.resetWith_wf p
  have hframe := (State.resetWith p).load_frame font program
  refine ⟨hframe, ?inv, ?font, ?program, ?rest⟩
  case inv =>
    rw [hframe]
    exact State.inv_of_running (State.load_wf hwf) (by decide : Config.spReset ≤ 16) rfl
  case font =>
    intro j hj
    rw [State.memRead_load_font hwf hfont hprog hj, List.getD_eq_getElem]
  case program =>
    intro j hj
    rw [State.memRead_load_program hwf hprog hj, List.getD_eq_getElem]
  case rest =>
    intro a hlow ha hout
    rw [State.memRead_load_rest hwf hfont hprog ha hlow hout, State.resetWith_memRead]

/-- Settles O2: pc is that of reset, and the image's first two bytes are the word there. -/
theorem firstFetchReadsProgramBase : Obligations.FirstFetchReadsProgramBase := by
  intro p font program s hs
  obtain ⟨⟨-, hprog⟩, rfl⟩ := State.boot_eq_some_iff.mp hs
  have hframe := (State.resetWith p).load_frame font program
  have hmode : ((State.resetWith p).load font program).mode = .running := by rw [hframe]; rfl
  have hpc : ((State.resetWith p).load font program).pc = 0x200 := by rw [hframe]; rfl
  have hfetch : ((State.resetWith p).load font program).fetchWord =
      BitVec.ofNat 16 ((((State.resetWith p).load font program).memRead 0x200).toNat * 256 +
        (((State.resetWith p).load font program).memRead 0x201).toNat) := by
    rw [State.fetchWord, hpc]
    rfl
  refine ⟨hmode, hpc, hfetch, ?_⟩
  rintro hi lo rest rfl
  rw [hfetch, State.memRead_load_program (State.resetWith_wf p) hprog (j := 0) (by simp),
    State.memRead_load_program (State.resetWith_wf p) hprog (j := 1) (by simp)]
  rfl

end Sys2Proof.Machine
end

section
/-! The cycle (40_cycle.md R100-R109) and its environment (45_timers_keys.md R216): fetch and dispatch, ticks and samples,
and the cycles in which the core stands still, those of a halt, of a key wait without a key and of a self-jump; O10 to
O16 and O19 are these put together. -/

namespace Sys2Proof.Machine

/-! ### Fetch and dispatch -/

/-- Settles O10: the state an instruction runs on is the one after the fetch. -/
theorem stepRunsDecodedInstruction : Obligations.StepRunsDecodedInstruction := fun _ _ hm hd => step_of_instr hm hd

/-- Settles O11: the fetch's advance and the diagnostic are all that is left of the cycle. -/
theorem unrecognizedWordIsNoOp : Obligations.UnrecognizedWordIsNoOp := fun _ _ hm hd => step_of_unrecognized hm hd

/-- The environment's part of a step writes both samples before anything reads them (40_cycle.md R107). -/
theorem State.sampleInput_setDiag_overwrites (s : State) (k : Option Key) (r : Byte) (d b : Bool) :
    ({ s with keyIn := k, randIn := r, diagUnrecognized := d } : State).sampleInput.setDiag b =
      s.sampleInput.setDiag b := rfl

/-- Settles O15: a step runs on the sampled state with the diagnostic cleared, which is the same for both. -/
theorem stepForgetsEarlierSamples : Obligations.StepForgetsEarlierSamples := by
  intro s k r d
  have hidle := s.sampleInput_setDiag_overwrites k r d false
  simp only [step, stepCycle, cycle, State.sampleInput_mode, hidle]

/-! ### Ticks and samples -/

theorem ticks_le (n : Nat) (t : Byte) : ticks n t ≤ t := by
  rw [BitVec.le_def, ticks_toNat]
  exact Nat.sub_le _ _

/-- Settles O16: each tick takes 1 from a timer above 0, and the sample is a write of the fields it names. -/
theorem environmentTicksAndSamples : Obligations.EnvironmentTicksAndSamples := by
  refine ⟨fun s => ⟨tick_toNat _, rfl, tick_toNat _, rfl⟩,
    fun s => ⟨ticks_toNat _ _, ticks_toNat _ _, State.memRead_congr s.sampleInput_mem, rfl⟩,
    fun s a rest h => ⟨State.nextInput_cons h, ?_⟩, fun s h => ⟨State.nextInput_nil h, ?_⟩⟩
  · rw [State.sampleInput_inputs, h, List.tail_cons]
  · rw [State.sampleInput_inputs, h, List.tail_nil]

/-! ### Cycles in which the core stands still -/

/-- What is left of a step when the core stands still: the environment's part, with the diagnostic cleared. -/
def State.idle (s : State) : State := s.sampleInput.setDiag false

/-- The part of the state that neither the environment nor the diagnostic touches. -/
def State.still (s : State) : Vector Byte 16 × Word × Word × Byte × Vector Word 16 × Display × Mode × Memory :=
  (s.V, s.I, s.pc, s.SP, s.stack, s.disp, s.mode, s.mem)

theorem State.still_eq_iff {s t : State} :
    t.still = s.still ↔ t.V = s.V ∧ t.I = s.I ∧ t.pc = s.pc ∧ t.SP = s.SP ∧ t.stack = s.stack ∧ t.disp = s.disp ∧
      t.mode = s.mode ∧ t.mem = s.mem := by
  simp only [State.still, Prod.mk.injEq]

section Idle

variable (s : State) (k : Nat)

theorem State.idle_iterate_still : (State.idle^[k] s).still = s.still := by
  induction k with
  | zero => rfl
  | succ k ih =>
    rw [Function.iterate_succ_apply', ← ih]
    rfl

theorem State.idle_iterate_DT_le : (State.idle^[k] s).DT ≤ s.DT := by
  induction k with
  | zero => exact BitVec.le_refl _
  | succ k ih =>
    rw [Function.iterate_succ_apply']
    exact BitVec.le_trans (ticks_le _ _) ih

theorem State.idle_iterate_ST_le : (State.idle^[k] s).ST ≤ s.ST := by
  induction k with
  | zero => exact BitVec.le_refl _
  | succ k ih =>
    rw [Function.iterate_succ_apply']
    exact BitVec.le_trans (ticks_le _ _) ih

theorem State.idle_iterate_diag (hk : 0 < k) : (State.idle^[k] s).diagUnrecognized = false := by
  obtain ⟨j, rfl⟩ := Nat.exists_eq_add_of_lt hk
  rw [Nat.zero_add, Function.iterate_succ_apply']
  rfl

theorem State.idle_iterate_inputs : (State.idle^[k] s).inputs = s.inputs.drop k := by
  induction k with
  | zero => rfl
  | succ k ih =>
    rw [Function.iterate_succ_apply', ← List.tail_drop, ← ih]
    rfl

variable {s}

/-- A core stands still for ever where it stands still for one step and the reason is of the part that stays. -/
theorem run_of_idle (P : State → Prop) (hstep : ∀ s, P s → step s = .next s.idle) (hkeep : ∀ s, P s → P s.idle)
    (h : P s) : Host.Core.run core k s = .next (State.idle^[k] s) ∧ P (State.idle^[k] s) := by
  induction k generalizing s with
  | zero => exact ⟨rfl, h⟩
  | succ k ih =>
    rw [run_succ (hstep s h), Function.iterate_succ_apply]
    exact ih (hkeep s h)

end Idle

/-- Settles O14: a halted core stands still. -/
theorem haltIsPermanent : Obligations.HaltIsPermanent := by
  intro k s c addr hm
  obtain ⟨hrun, hmode⟩ :=
    run_of_idle k (fun s => s.mode = .halted c addr) (fun _ => step_of_halted) (fun _ h => h) hm
  obtain ⟨hV, hI, hpc, hSP, hstack, hdisp, -, hmem⟩ := State.still_eq_iff.mp (s.idle_iterate_still k)
  exact ⟨_, hrun, hmode, by rw [hV, hI, hpc, hSP, hstack, hdisp], State.memRead_congr hmem,
    s.idle_iterate_DT_le k, s.idle_iterate_ST_le k, s.idle_iterate_diag k⟩

/-! ### The self-jump (70_reset_and_hazards.md R270) -/

theorem State.atEnd_iff (s : State) :
    s.atEnd = true ↔ s.mode = .running ∧ s.pc ≤ 0xFFF ∧ s.fetchWord = 0x1000 ||| s.pc := by
  simp [State.atEnd, State.fetchWord, and_assoc]

/-- An address of 12 bits is its own low 12 bits. -/
theorem addrOperand_setWidth {pc : Word} (h : pc ≤ 0xFFF) : addrOperand (pc.setWidth 12) = pc := by
  apply BitVec.eq_of_toNat_eq
  have hlt : pc.toNat < 4096 := Nat.lt_succ_of_le h
  rw [addrOperand_toNat, BitVec.toNat_setWidth, Nat.mod_eq_of_lt hlt]

theorem step_of_atEnd {s : State} (h : s.atEnd = true) : step s = .next s.idle := by
  obtain ⟨hm, hpc, hw⟩ := s.atEnd_iff.mp h
  have hword : s.fetchWord = encode (.jp (s.pc.setWidth 12)) := by
    rw [hw, encode, packA, show (s.pc.setWidth 12).setWidth 16 = s.pc from addrOperand_setWidth hpc]
  rw [step_of_instr hm (hword ▸ decodeWord_encode _), exec_jp, addrOperand_setWidth hpc]
  rfl

/-- Settles O19: the self-jump takes pc back, so the core stands still. -/
theorem selfJumpRunsForEver : Obligations.SelfJumpRunsForEver := by
  intro k s h
  obtain ⟨hrun, hend⟩ := run_of_idle k (fun s => s.atEnd = true) (fun _ => step_of_atEnd) (fun _ h => h) h
  obtain ⟨hV, hI, hpc, hSP, hstack, hdisp, hmode, hmem⟩ := State.still_eq_iff.mp (s.idle_iterate_still k)
  exact ⟨_, hrun, hend, hpc, by rw [hV, hI, hSP, hstack, hdisp, hmode], State.memRead_congr hmem⟩

/-! ### The key wait (40_cycle.md R106) -/

section Wait

variable {s : State} {x : Reg}

theorem step_of_waiting_quiet (hm : s.mode = .waitingForKey x) (hk : s.nextInput.key = none) :
    step s = .next s.idle := by
  rw [step_of_waiting hm, State.pollKey_none (s := s.sampleInput.setDiag false) hk]
  rfl

theorem step_of_waiting_key {k : Key} (hm : s.mode = .waitingForKey x) (hk : s.nextInput.key = some k) :
    step s = .next ((s.idle.setV x (k.setWidth 8)).setMode .running) := by
  rw [step_of_waiting hm, State.pollKey_some (s := s.sampleInput.setDiag false) hk]
  rfl

theorem key_setWidth_toNat (k : Key) : (k.setWidth 8).toNat = k.toNat := BitVec.toNat_setWidth_of_le (by decide)

/-- A wait stands still over inputs without a key. -/
theorem run_of_quiet (quiet : List Config.CycleInput) (rest : List Config.CycleInput) (j : Nat)
    (hm : s.mode = .waitingForKey x) (hq : ∀ a ∈ quiet, a.key = none) (hin : s.inputs = quiet ++ rest) :
    Host.Core.run core (quiet.length + j) s = Host.Core.run core j (State.idle^[quiet.length] s) := by
  induction quiet generalizing s with
  | nil => rw [List.length_nil, Nat.zero_add, Function.iterate_zero_apply]
  | cons a quiet ih =>
    obtain ⟨ha, hq'⟩ := List.forall_mem_cons.mp hq
    have hstep := step_of_waiting_quiet hm (State.nextInput_cons hin ▸ ha)
    have hin' : s.idle.inputs = quiet ++ rest := congrArg List.tail hin
    rw [List.length_cons, Nat.add_right_comm, run_succ hstep, ih (s := s.idle) hm hq' hin', Function.iterate_succ_apply]

end Wait

/-- Settles O12: without a key the core stands still, with one the wait ends. -/
theorem waitingStepPollsTheKey : Obligations.WaitingStepPollsTheKey := by
  intro s x hm
  cases hk : s.nextInput.key with
  | none =>
    refine ⟨_, step_of_waiting_quiet hm hk, rfl, rfl, fun _ => rfl, rfl, fun _ => ⟨hm, rfl⟩, fun k hk' => ?_⟩
    cases hk.symm.trans hk'
  | some k =>
    refine ⟨_, step_of_waiting_key hm hk, rfl, rfl, fun _ => rfl, rfl, fun hk' => ?_, fun k' hk' => ?_⟩
    · cases hk.symm.trans hk'
    · cases hk.symm.trans hk'
      refine ⟨rfl, ?_, fun r hr => ?_⟩
      · rw [State.getV_setMode, State.getV_setV_self, key_setWidth_toNat]
      · rw [State.getV_setMode, State.getV_setV_of_ne _ _ hr]
        rfl

/-- Settles O13: the core stands still over the quiet inputs, and then the key ends the wait. -/
theorem waitEndsWithTheFirstKey : Obligations.WaitEndsWithTheFirstKey := by
  intro quiet last more k s x hm hq hlast hin
  have hstill := s.idle_iterate_still quiet.length
  have hinputs := s.idle_iterate_inputs quiet.length
  have hrun := run_of_quiet quiet (last :: more) 1 hm hq hin
  generalize State.idle^[quiet.length] s = u at hstill hinputs hrun
  rw [hin, List.drop_left] at hinputs
  obtain ⟨hV, -, hpc, -, -, -, hmode, hmem⟩ := State.still_eq_iff.mp hstill
  have hstep := step_of_waiting_key (hmode.trans hm) ((State.nextInput_cons hinputs).symm ▸ hlast)
  refine ⟨_, hrun.trans ((run_succ hstep 0).trans rfl), rfl, hpc, ?key, ?others, State.memRead_congr hmem,
    congrArg List.tail hinputs⟩
  case key => rw [State.getV_setMode, State.getV_setV_self, key_setWidth_toNat]
  case others =>
    intro r hr
    rw [State.getV_setMode, State.getV_setV_of_ne _ _ hr]
    exact State.getV_congr hV r

end Sys2Proof.Machine
end

section
/-! Control transfer with an offset and the call stack (41_control_flow.md R121, R122, R127, R128): the frame of the push,
the pop and the halt, and the call stack as a list; O21 and O24 to O29 are these put together. -/

namespace Sys2Proof.Machine

/-! ### JP V0 -/

theorem exec_jpV0 (nnn : Addr12) (s : State) : exec (.jpV0 nnn) s = .next (s.setPc (offsetTarget s nnn)) := rfl

theorem offsetTarget_toNat (s : State) (nnn : Addr12) :
    (offsetTarget s nnn).toNat = (s.getV 0).toNat + nnn.toNat := by
  have hV := (s.getV 0).isLt
  have hN := nnn.isLt
  rw [offsetTarget, BitVec.toNat_add, addrOperand_toNat, BitVec.toNat_setWidth_of_le (by decide)]
  omega

/-- A fetch reduces both its addresses (20_memory.md R51, R53). -/
theorem State.fetchWord_eq_mod (s : State) :
    s.fetchWord = BitVec.ofNat 16 ((s.memRead (s.pc.toNat % 4096)).toNat * 256 +
      (s.memRead ((s.pc.toNat + 1) % 4096)).toNat) := by
  rw [State.memRead_mod, State.memRead_mod]
  rfl

/-- Settles O21: the sum is at most 0xFF + 0xFFF, so the addition does not wrap. -/
theorem jpV0AddsTheOffset : Obligations.JpV0AddsTheOffset := by
  intro s nnn
  have hsum := offsetTarget_toNat s nnn
  have hle : (offsetTarget s nnn).toNat ≤ 0x10FE := by
    have hV := (s.getV 0).isLt
    have hN := nnn.isLt
    omega
  exact ⟨_, exec_jpV0 nnn s, hsum, hle, s.onlyPcDiffers_setPc _, State.fetchWord_eq_mod _⟩

/-! ### CALL and RET, one at a time -/

/-- Settles O24: the push and then the jump. -/
theorem callPushesAndJumps : Obligations.CallPushesAndJumps := by
  intro s nnn hlt
  have hfree : s.SP.toNat < 16 := hlt
  refine ⟨_, exec_call_free hfree nnn, addrOperand_toNat nnn, ?count, fun k => s.pushPc_stack_get hfree k k.isLt, rfl,
    fun _ => rfl⟩
  case count =>
    rw [State.setPc_SP, State.pushPc_SP]
    bv_omega

/-- Settles O25: the pop, whose entry is the one below SP. -/
theorem retPopsAndReturns : Obligations.RetPopsAndReturns := by
  intro s hpos hle
  have hocc : (s.SP - 1).toNat < 16 := by bv_omega
  refine ⟨_, exec_ret_occupied (by bv_omega) hocc, ?count, fun k hk => ?entry, rfl, fun _ => rfl⟩
  case count =>
    rw [State.popPc_SP]
    bv_omega
  case entry =>
    have hval : (s.SP - 1).toNat = k.val := by bv_omega
    simp only [State.popPc_pc, hval]
    rfl

/-- Settles O26: a halt is a write of the mode. -/
theorem stackBoundsHalt : Obligations.StackBoundsHalt :=
  ⟨fun _ nnn h => ⟨_, exec_call_full h nnn, rfl, fun _ => rfl⟩, fun _ h => ⟨_, exec_ret_empty h, rfl, fun _ => rfl⟩⟩

/-- Settles O27: neither bound is met and no entry is in range. -/
theorem absentStackEntryFaults : Obligations.AbsentStackEntryFaults := by
  intro s h
  constructor
  · intro nnn
    rw [exec, execCall, if_neg (by bv_omega), dif_neg (by bv_omega)]
  · rw [exec, execRet, if_neg (by bv_omega), dif_neg (by bv_omega)]

/-- Settles O29: the entry RET uncovers is the one CALL pushed. -/
theorem callThenRetReturns : Obligations.CallThenRetReturns := by
  intro s nnn hlt
  have hfree : s.SP.toNat < 16 := hlt
  refine ⟨_, exec_call_free hfree nnn, fun u hSP hstack => ?_⟩
  have hback : u.SP - 1 = s.SP := by
    rw [hSP, State.setPc_SP, State.pushPc_SP]
    bv_omega
  have hocc : (u.SP - 1).toNat < 16 := hback ▸ hfree
  refine ⟨_, exec_ret_occupied ?_ hocc, ?_, hback⟩
  · rw [hSP, State.setPc_SP, State.pushPc_SP]
    bv_omega
  · simp only [State.popPc_pc, hback, hstack, State.setPc_stack, State.pushPc_stack, Vector.getElem_set_self]

/-! ### The call stack as a list -/

section CallStack

variable {s t : State}

theorem callStack_congr (hSP : t.SP = s.SP) (hstack : t.stack = s.stack) : callStack t = callStack s := by
  simp only [callStack, hSP, hstack]

theorem callStack_empty (h : s.SP = 0) : callStack s = [] := by
  simp [callStack, h]

/-- The entries below `n`, the highest first. -/
def entriesBelow (n : Nat) (st : Vector Word 16) : List Word :=
  ((List.finRange 16).take n).reverse.map fun k => st[k]

theorem callStack_eq_entriesBelow (s : State) : callStack s = entriesBelow s.SP.toNat s.stack := rfl

theorem entriesBelow_succ {n : Nat} (hn : n < 16) (st : Vector Word 16) :
    entriesBelow (n + 1) st = st[n] :: entriesBelow n st := by
  simp [entriesBelow, List.take_add_one, hn]

/-- An entry at `n` or above is not among them. -/
theorem entriesBelow_set {n : Nat} (hn : n < 16) (st : Vector Word 16) (v : Word) :
    entriesBelow n (st.set n v) = entriesBelow n st := by
  refine List.map_congr_left fun k hk => ?_
  have hlt : k.val < n := by
    obtain ⟨j, hj, rfl⟩ := List.mem_take_iff_getElem.mp (List.mem_reverse.mp hk)
    simp
    omega
  exact Vector.getElem_set_ne _ _ (by omega)

theorem callStack_push (hfree : s.SP.toNat < 16) (a : Word) :
    callStack ((s.pushPc hfree).setPc a) = s.pc :: callStack s := by
  have hSP : (s.SP + 1).toNat = s.SP.toNat + 1 := by bv_omega
  rw [callStack_eq_entriesBelow, callStack_eq_entriesBelow, State.setPc_SP, State.setPc_stack, State.pushPc_SP,
    State.pushPc_stack, hSP, entriesBelow_succ hfree, entriesBelow_set, Vector.getElem_set_self]

theorem callStack_pop (hocc : (s.SP - 1).toNat < 16) :
    callStack s = (s.popPc hocc).pc :: callStack (s.popPc hocc) := by
  have hSP : s.SP.toNat = (s.SP - 1).toNat + 1 := by bv_omega
  rw [callStack_eq_entriesBelow, hSP, entriesBelow_succ hocc]
  rfl

end CallStack

/-- Settles O28: CALL and RET by what SP says; the other instructions keep SP and the stack. -/
theorem callStackIsLastInFirstOut : Obligations.CallStackIsLastInFirstOut := by
  intro i s t _ h
  cases hi : usesStack i with
  | false =>
    obtain ⟨-, hstack, hSP⟩ := exec_withStack s.stack hi h
    have hsame : callStack t = callStack s := callStack_congr hSP hstack
    cases i with
    | call | ret => cases hi
    | _ => exact hsame
  | true =>
    cases i with
    | call nnn =>
      rcases exec_call_cases h with ⟨h16, rfl⟩ | ⟨hfree, rfl⟩
      · exact ⟨fun hlt => absurd h16 (by bv_omega), fun _ => rfl⟩
      · exact ⟨fun _ => callStack_push hfree _, fun h16 => absurd h16 (by bv_omega)⟩
    | ret =>
      rcases exec_ret_cases h with ⟨h0, rfl⟩ | ⟨hocc, rfl⟩
      · exact ⟨fun a l hl => absurd ((callStack_empty h0).symm.trans hl) (List.cons_ne_nil a l).symm, id⟩
      · rw [callStack_pop hocc]
        exact ⟨fun a l hl => List.cons.inj hl, nofun⟩
    | _ => cases hi

end Sys2Proof.Machine
end

section
/-! The ALU's flag writers, logic and random byte, and the addition to I (42_alu.md R143-R151; 43_index_memory.md R171):
the results in plain numbers and the next state of each instruction; O32, O34, O35, O36 and O38 are these put together. -/

namespace Sys2Proof.Machine

/-! ### The next state of each instruction -/

theorem exec_orReg (x y : Reg) (s : State) : exec (.orReg x y) s = .next (s.setV x (s.getV x ||| s.getV y)) := rfl

theorem exec_andReg (x y : Reg) (s : State) : exec (.andReg x y) s = .next (s.setV x (s.getV x &&& s.getV y)) := rfl

theorem exec_xorReg (x y : Reg) (s : State) : exec (.xorReg x y) s = .next (s.setV x (s.getV x ^^^ s.getV y)) := rfl

theorem exec_sub (x y : Reg) (s : State) :
    exec (.sub x y) s = .next (s.setFlagThenV x (differenceNotBorrow (s.getV x) (s.getV y))
      (differenceResult (s.getV x) (s.getV y))) := rfl

theorem exec_subn (x y : Reg) (s : State) :
    exec (.subn x y) s = .next (s.setFlagThenV x (differenceNotBorrow (s.getV y) (s.getV x))
      (differenceResult (s.getV y) (s.getV x))) := rfl

theorem exec_shr (x y : Reg) (s : State) :
    exec (.shr x y) s = .next (s.setFlagThenV x (shiftRightOut (s.getV x)) (shiftRightResult (s.getV x))) := rfl

theorem exec_shl (x y : Reg) (s : State) :
    exec (.shl x y) s = .next (s.setFlagThenV x (shiftLeftOut (s.getV x)) (shiftLeftResult (s.getV x))) := rfl

theorem exec_rnd (x : Reg) (nn : Byte) (s : State) : exec (.rnd x nn) s = .next (s.setV x (s.randIn &&& nn)) := rfl

theorem exec_addI (x : Reg) (s : State) : exec (.addI x) s = .next (s.setI (s.I + (s.getV x).setWidth 16)) := rfl

/-! ### The results in plain numbers -/

theorem differenceResult_toNat (a b : Byte) : (differenceResult a b).toNat = (a.toNat + 256 - b.toNat) % 256 := by
  rw [differenceResult_eq]
  bv_omega

theorem shiftRightResult_toNat (a : Byte) : (shiftRightResult a).toNat = a.toNat / 2 := by
  rw [shiftRightResult, BitVec.toNat_ushiftRight, Nat.shiftRight_one]

theorem shiftLeftResult_toNat (a : Byte) : (shiftLeftResult a).toNat = a.toNat * 2 % 256 := by
  rw [shiftLeftResult, BitVec.toNat_shiftLeft, Nat.shiftLeft_eq]

theorem flagByte_toNat (b : Bool) : (flagByte b).toNat = b.toNat := by
  cases b <;> rfl

theorem shiftRightOut_toNat (a : Byte) : (shiftRightOut a).toNat = a.toNat % 2 := by
  rw [shiftRightOut, flagByte_toNat, BitVec.getLsbD, Nat.toNat_testBit, pow_zero, Nat.div_one]

theorem shiftLeftOut_toNat (a : Byte) : (shiftLeftOut a).toNat = a.toNat / 128 := by
  have := a.isLt
  rw [shiftLeftOut, flagByte_toNat, BitVec.getLsbD, Nat.toNat_testBit]
  omega

/-! ### The obligations -/

/-- Settles O32: one write of V[X] each, whose bits are those of the operation. -/
theorem logicIsBitwise : Obligations.LogicIsBitwise := by
  intro s x y
  have frame (v : Byte) : OnlyRegistersDiffer s (s.setV x v) ∧ ∀ r, r ≠ x → (s.setV x v).getV r = s.getV r :=
    ⟨s.onlyRegistersDiffer_setV x v, fun _ hr => s.getV_setV_of_ne v hr⟩
  refine ⟨⟨_, exec_orReg x y s, (frame _).1, (frame _).2, fun b => ?or⟩,
    ⟨_, exec_andReg x y s, (frame _).1, (frame _).2, fun b => ?and⟩,
    ⟨_, exec_xorReg x y s, (frame _).1, (frame _).2, fun b => ?xor⟩⟩
  case or => rw [State.getV_setV_self, BitVec.getLsbD_or]
  case and => rw [State.getV_setV_self, BitVec.getLsbD_and]
  case xor => rw [State.getV_setV_self, BitVec.getLsbD_xor]

/-- The shape SUB and SUBN share: VF takes the NOT-borrow of `a - b`, V[X], written after it, the difference. -/
theorem setFlagThenV_difference (s : State) (x : Reg) (a b : Byte) :
    let t := s.setFlagThenV x (differenceNotBorrow a b) (differenceResult a b)
    OnlyRegistersDiffer s t ∧ (t.getV x).toNat = (a.toNat + 256 - b.toNat) % 256 ∧
      (x ≠ 15 → t.getV 15 = if b ≤ a then 1 else 0) ∧ (∀ r, r ≠ x → r ≠ 15 → t.getV r = s.getV r) := by
  refine ⟨s.onlyRegistersDiffer_setFlagThenV x _ _, ?difference, fun hx => ?flag,
    fun _ hrx hrF => s.getV_setFlagThenV_of_ne _ _ hrx hrF⟩
  case difference => rw [State.getV_setFlagThenV_self, differenceResult_toNat]
  case flag => rw [State.getV_setFlagThenV_VF s _ _ hx, differenceNotBorrow_eq]

/-- Settles O34: SUB and SUBN are the same with the operands exchanged. -/
theorem subtractionsSetNotBorrow : Obligations.SubtractionsSetNotBorrow := fun s x y =>
  ⟨⟨_, exec_sub x y s, setFlagThenV_difference s x _ _⟩, ⟨_, exec_subn x y s, setFlagThenV_difference s x _ _⟩⟩

/-- Settles O35: the meanings do not name Y; the flag is the bit that leaves. -/
theorem shiftsMoveOneBit : Obligations.ShiftsMoveOneBit := by
  intro s x y
  refine ⟨⟨_, exec_shr x y s, fun y' => exec_shr x y' s, s.onlyRegistersDiffer_setFlagThenV x _ _, ?right,
      fun hx => ?rightOut, fun _ hrx hrF => s.getV_setFlagThenV_of_ne _ _ hrx hrF⟩,
    ⟨_, exec_shl x y s, fun y' => exec_shl x y' s, s.onlyRegistersDiffer_setFlagThenV x _ _, ?left,
      fun hx => ?leftOut, fun _ hrx hrF => s.getV_setFlagThenV_of_ne _ _ hrx hrF⟩⟩
  case right => rw [State.getV_setFlagThenV_self, shiftRightResult_toNat]
  case rightOut => rw [State.getV_setFlagThenV_VF s _ _ hx, shiftRightOut_toNat]
  case left => rw [State.getV_setFlagThenV_self, shiftLeftResult_toNat]
  case leftOut => rw [State.getV_setFlagThenV_VF s _ _ hx, shiftLeftOut_toNat]

/-- Settles O36: a byte under NN is its own mask, so it is the draw that gives it. -/
theorem rndMasksTheDraw : Obligations.RndMasksTheDraw := by
  intro s x nn
  refine ⟨⟨_, exec_rnd x nn s, s.onlyRegistersDiffer_setV x _, fun _ hr => s.getV_setV_of_ne _ hr, fun b => ?mask⟩,
    fun v hv => ⟨v, _, exec_rnd x nn _, ?draw⟩⟩
  case mask => rw [State.getV_setV_self, BitVec.getLsbD_and]
  case draw => exact (State.getV_setV_self _ x _).trans hv

/-- Settles O38: one assignment to I, of the 16-bit sum. -/
theorem addToIndex : Obligations.AddToIndex := by
  intro s x
  refine ⟨_, exec_addI x s, ?sum, s.onlyIndexDiffers_setI _⟩
  case sum => rw [State.setI_I, BitVec.toNat_add, BitVec.toNat_setWidth_of_le (by decide)]

end Sys2Proof.Machine
end

section
/-! Memory transfer (43_index_memory.md R173-R175): LD B and LD [I],Vx as runs of bytes, LD Vx,[I], and the word a fetch
reads after a store (20_memory.md, Ordering and synchronisation); O39 to O43 are these put together. -/

namespace Sys2Proof.Machine

/-! ### The next state of each instruction -/

theorem exec_ldB (x : Reg) (s : State) :
    exec (.ldB x) s = .next (s.memWriteList s.I.toNat (bcdDigits (s.getV x))) := rfl

theorem exec_storeRegs (x : Reg) (s : State) : exec (.storeRegs x) s = .next (s.storeRegsAt x) := rfl

theorem exec_loadRegs (x : Reg) (s : State) : exec (.loadRegs x) s = .next (s.loadRegsAt x) := rfl

/-! ### Frames -/

theorem State.onlyMemoryDiffers_memWriteList (s : State) (a : Nat) (l : List Byte) :
    OnlyMemoryDiffers s (s.memWriteList a l) :=
  s.memWriteList_frame a l

theorem State.onlyRegistersDiffer_loadRegsAt (s : State) (x : Reg) : OnlyRegistersDiffer s (s.loadRegsAt x) :=
  ⟨s.loadRegsAt_frame x, State.memRead_congr (congrArg State.mem (s.loadRegsAt_frame x) :)⟩

/-! ### Digits -/

theorem bcdDigits_length (v : Byte) : (bcdDigits v).length = 3 := rfl

/-- A digit fits a byte, so what is read of a stored digit is the digit. -/
theorem State.memRead_bcd_toNat {s : State} (hwf : Memory.wf s.mem = true) (v : Byte) (a : Nat) {j d : Nat}
    (hd : (bcdDigits v)[j]? = some (BitVec.ofNat 8 d)) (hlt : d < 256) :
    ((s.memWriteList a (bcdDigits v)).memRead (a + j)).toNat = d := by
  obtain ⟨hj, hd⟩ := List.getElem?_eq_some_iff.mp hd
  rw [State.memRead_memWriteList_inside hwf (by rw [bcdDigits_length]; decide) hj, hd, BitVec.toNat_ofNat,
    Nat.mod_eq_of_lt hlt]

/-- Settles O39: LD B is a run of three bytes at I. -/
theorem bcdStoresThreeDigits : Obligations.BcdStoresThreeDigits := by
  intro s x hwf
  have hlt := (s.getV x).isLt
  refine ⟨_, exec_ldB x s, s.onlyMemoryDiffers_memWriteList _ _,
    State.memRead_bcd_toNat hwf _ _ (j := 0) rfl (by omega),
    State.memRead_bcd_toNat hwf _ _ (j := 1) rfl (by omega),
    State.memRead_bcd_toNat hwf _ _ (j := 2) rfl (by omega), fun a h0 h1 h2 => ?_⟩
  refine State.memRead_memWriteList_outside hwf fun j hj => ?_
  rw [bcdDigits_length] at hj
  interval_cases j
  · exact h0
  · exact h1
  · exact h2

/-- Settles O40: each register at its own address, nothing elsewhere. -/
theorem registerSaveStoresEach : Obligations.RegisterSaveStoresEach := fun s x hwf =>
  ⟨_, exec_storeRegs x s, s.storeRegsAt_frame x, fun _ hi => State.memRead_storeRegsAt hwf hi,
    fun _ ha => State.memRead_storeRegsAt_outside hwf ha⟩

/-- Settles O41: a register up to X takes its byte, one above X keeps its value. -/
theorem registerLoadReadsEach : Obligations.RegisterLoadReadsEach := by
  intro s x
  refine ⟨_, exec_loadRegs x s, s.onlyRegistersDiffer_loadRegsAt x, fun i hi => ?loaded, fun r hr => ?kept⟩
  case loaded => rw [State.getV_loadRegsAt, if_pos hi]
  case kept => rw [State.getV_loadRegsAt, if_neg (not_le.mpr hr)]

/-- Settles O42: the load reads the bytes that the save stored. -/
theorem saveThenLoadRestores : Obligations.SaveThenLoadRestores := by
  intro s x hwf
  refine ⟨_, exec_storeRegs x s, fun u hmem hI => ⟨_, exec_loadRegs x u, fun i hi => ?restored, fun r hr => ?kept⟩⟩
  case restored => rw [State.getV_loadRegsAt, if_pos hi, State.memRead_congr hmem, hI, State.memRead_storeRegsAt hwf hi]
  case kept => rw [State.getV_loadRegsAt, if_neg (not_le.mpr hr)]

/-! ### Stored code -/

/-- A run of bytes that does not overlap itself decides every byte of memory. -/
theorem byteAfterStore_memWriteList {s : State} (hwf : Memory.wf s.mem = true) (base : Nat) {l : List Byte}
    (hl : l.length ≤ 4096) (a : Nat) : ByteAfterStore s base l a ((s.memWriteList base l).memRead a) :=
  ⟨fun _ hj ha => State.memRead_memWriteList_at hwf hl hj ha, fun ha => State.memRead_memWriteList_outside hwf ha⟩

/-- The next fetch after a store, at any pc, reads the two bytes of its word (20_memory.md R53). -/
theorem fetch_after_memWriteList {s : State} (hwf : Memory.wf s.mem = true) (base : Nat) {l : List Byte}
    (hl : l.length ≤ 4096) (pc : Word) :
    ∃ hi lo : Byte, ((s.memWriteList base l).setPc pc).fetchWord = BitVec.ofNat 16 (hi.toNat * 256 + lo.toNat) ∧
      ByteAfterStore s base l pc.toNat hi ∧ ByteAfterStore s base l (pc.toNat + 1) lo :=
  ⟨_, _, rfl, byteAfterStore_memWriteList hwf base hl _, byteAfterStore_memWriteList hwf base hl _⟩

/-- Settles O43: both instructions are runs of at most 16 bytes at I. -/
theorem storedCodeIsFetched : Obligations.StoredCodeIsFetched := by
  intro s x hwf
  constructor
  · refine ⟨_, exec_storeRegs x s, fun pc => ?_⟩
    rw [State.storeRegsAt_eq, ← regsUpTo_eq_take]
    exact fetch_after_memWriteList hwf _ (by rw [List.length_map, regsUpTo_length]; omega) pc
  · exact ⟨_, exec_ldB x s, fetch_after_memWriteList hwf _ (by rw [bcdDigits_length]; decide)⟩

end Sys2Proof.Machine
end

section
/-! Drawing (44_display.md R190-R196): the state after DRW, its pixels under the bits of the sprite, its collision flag,
and the second draw of the same sprite; O45 to O48 are these put together. -/

namespace Sys2Proof.Machine

/-! ### The state after DRW -/

/-- The state DRW answers. -/
def State.drawn (s : State) (x y : Reg) (n : Nibble) : State :=
  (s.setDisp (drwResult x y n s).1).setV regVF (flagByte (drwResult x y n s).2)

/-- The bit DRW draws over the pixel (u, v). -/
def State.drawnBit (s : State) (x y : Reg) (n : Nibble) (u v : Nat) : Bool :=
  spriteBit (s.getV x).toNat (s.getV y).toNat (spriteRows s n) u v

section Draw

variable (s : State) (x y : Reg) (n : Nibble)

theorem exec_drw : exec (.drw x y n) s = .next (s.drawn x y n) := rfl

theorem State.drawn_VF : (s.drawn x y n).getV 15 = flagByte (drwResult x y n s).2 :=
  State.getV_setV_VF _ _

theorem State.drawn_getV_of_ne {r : Reg} (hr : r ≠ 15) : (s.drawn x y n).getV r = s.getV r :=
  State.getV_setV_VF_of_ne _ _ hr

theorem flagByte_eq_one_iff (b : Bool) : flagByte b = 1 ↔ b = true := by
  cases b <;> decide

/-- A pixel under a bit of the sprite flips, any other stays. -/
theorem State.drawn_pixel (u v : Nat) :
    (s.drawn x y n).disp.pixel u v =
      (s.disp.pixel u v ^^ (decide (u < 64 ∧ v < 32) && s.drawnBit x y n u v)) :=
  drawSprite_pixel _ _ _ _ u v

theorem drwResult_collision :
    (drwResult x y n s).2 = true ↔ ∃ u v, s.disp.pixel u v = true ∧ s.drawnBit x y n u v = true :=
  drawSprite_collision _ _ _ _

theorem spriteBit_of_row {rows : List Byte} {row : Byte} {ox oy u v : Nat} (h : rows[v - oy]? = some row) :
    spriteBit ox oy rows u v = (decide (oy ≤ v ∧ ox ≤ u ∧ u < ox + 8) && row.getLsbD (7 - (u - ox))) := by
  rw [spriteBit, h]

theorem spriteBit_of_no_row {rows : List Byte} {ox oy u v : Nat} (h : rows[v - oy]? = none) :
    spriteBit ox oy rows u v = false := by
  rw [spriteBit, h]

/-- The bits of the sprite are those of the rows read from I on. -/
theorem State.drawnBit_iff (u v : Nat) :
    s.drawnBit x y n u v = true ↔ SpriteCovers s s.I.toNat n.toNat (s.getV x).toNat (s.getV y).toNat u v := by
  have row (r : Nat) : (spriteRows s n)[r]? = if r < n.toNat then some (s.memRead (s.I.toNat + r)) else none :=
    s.memReadList_getElem? _ _ r
  constructor
  · intro h
    by_cases hr : v - (s.getV y).toNat < n.toNat
    · rw [State.drawnBit, spriteBit_of_row ((row _).trans (if_pos hr)), Bool.and_eq_true, decide_eq_true_eq] at h
      obtain ⟨⟨hv, hu, hu8⟩, hbit⟩ := h
      exact ⟨_, _, hr, by omega, by omega, by omega, hbit⟩
    · rw [State.drawnBit, spriteBit_of_no_row ((row _).trans (if_neg hr))] at h
      cases h
  · rintro ⟨r, c, hr, hc, rfl, rfl, hbit⟩
    have hrow := (row ((s.getV y).toNat + r - (s.getV y).toNat)).trans (if_pos (by omega))
    rw [State.drawnBit, spriteBit_of_row hrow, Nat.add_sub_cancel_left, Nat.add_sub_cancel_left, hbit, Bool.and_true,
      decide_eq_true_eq]
    omega

variable {s}

theorem Display.onScreen_of_pixel {d : Display} {u v : Nat} (h : d.pixel u v = true) : u < 64 ∧ v < 32 := by
  by_contra hout
  rw [d.pixel_outside (fun hin => hout hin.symm)] at h
  cases h

/-- A sprite without a bit on screen draws nothing and does not collide. -/
theorem State.drawn_of_no_bit (h : ∀ u v, u < 64 → v < 32 → s.drawnBit x y n u v = false) :
    (s.drawn x y n).disp = s.disp ∧ (s.drawn x y n).getV 15 = 0 := by
  constructor
  · refine Display.ext_of_pixel fun u v hu hv => ?_
    rw [State.drawn_pixel, h u v hu hv, Bool.and_false, Bool.xor_false]
  · have hcol : (drwResult x y n s).2 = false := by
      refine Bool.eq_false_iff.mpr fun hcol => ?_
      obtain ⟨u, v, hpix, hbit⟩ := (drwResult_collision s x y n).mp hcol
      obtain ⟨hu, hv⟩ := Display.onScreen_of_pixel hpix
      rw [h u v hu hv] at hbit
      cases hbit
    rw [State.drawn_VF, hcol]
    rfl

/-! ### The same sprite again: the origin is neither of VF, and I and memory stay -/

variable {x y} (hx : x ≠ 15) (hy : y ≠ 15)
include hx hy

theorem State.drawnBit_drawn (u v : Nat) : (s.drawn x y n).drawnBit x y n u v = s.drawnBit x y n u v := by
  rw [State.drawnBit, State.drawn_getV_of_ne s x y n hx, State.drawn_getV_of_ne s x y n hy,
    spriteRows_congr (s := s) (t := s.drawn x y n) rfl rfl]
  rfl

theorem State.drawn_twice_disp : ((s.drawn x y n).drawn x y n).disp = s.disp := by
  refine Display.ext_of_pixel fun u v _ _ => ?_
  rw [State.drawn_pixel, State.drawn_pixel, State.drawnBit_drawn n hx hy, Bool.xor_assoc, Bool.xor_self,
    Bool.xor_false]

end Draw

/-! ### The obligations -/

/-- Settles O45: pixel by pixel, and the flag by whether a bit lies over a pixel that was on. -/
theorem drwFlipsPixelsAndReportsCollision : Obligations.DrwFlipsPixelsAndReportsCollision := by
  intro s x y n
  refine ⟨_, exec_drw s x y n, ?flips, ?collision, fun _ hr => s.drawn_getV_of_ne x y n hr, rfl, fun _ => rfl⟩
  case flips =>
    intro u v hu hv
    rw [← s.drawnBit_iff x y n, State.drawn_pixel, decide_eq_true ⟨hu, hv⟩, Bool.true_and]
    cases s.drawnBit x y n u v <;> simp
  case collision =>
    have hcol := drwResult_collision s x y n
    rw [State.drawn_VF]
    cases hb : (drwResult x y n s).2 with
    | true =>
      obtain ⟨u, v, hpix, hbit⟩ := hcol.mp hb
      refine .inl ⟨rfl, u, v, hpix, ?_⟩
      rw [State.drawn_pixel, hpix, hbit, decide_eq_true (Display.onScreen_of_pixel hpix)]
      rfl
    | false =>
      refine .inr ⟨rfl, fun u v hpix => ?_⟩
      have hbit : s.drawnBit x y n u v = false :=
        Bool.eq_false_iff.mpr fun hbit => Bool.eq_false_iff.mp hb (hcol.mpr ⟨u, v, hpix, hbit⟩)
      rw [State.drawn_pixel, hpix, hbit, Bool.and_false, Bool.xor_false]

/-- Settles O46: no bit of such a sprite lies on screen. -/
theorem drwOffScreenDrawsNothing : Obligations.DrwOffScreenDrawsNothing := by
  intro s x y n hoff
  have no_bit (u v : Nat) (hu : u < 64) (hv : v < 32) : s.drawnBit x y n u v = false := by
    refine Bool.eq_false_iff.mpr fun hbit => ?_
    obtain ⟨r, c, hr, -, rfl, rfl, -⟩ := (s.drawnBit_iff x y n u v).mp hbit
    rcases hoff with hX | hY | rfl
    · omega
    · omega
    · exact Nat.not_lt_zero r hr
  obtain ⟨hdisp, hVF⟩ := State.drawn_of_no_bit x y n no_bit
  exact ⟨_, exec_drw s x y n, hdisp, hVF, fun _ hr => s.drawn_getV_of_ne x y n hr⟩

/-- Settles O47: on a clear buffer the pixels the first draw leaves on are the sprite's bits on screen. -/
theorem drwTwiceRestores : Obligations.DrwTwiceRestores := by
  intro s x y n hx hy hclear
  refine ⟨_, _, exec_drw s x y n, exec_drw _ x y n, State.drawn_twice_disp n hx hy, ?first, ?second⟩
  case first =>
    have hcol : (drwResult x y n s).2 = false := by
      refine Bool.eq_false_iff.mpr fun hcol => ?_
      obtain ⟨u, v, hpix, -⟩ := (drwResult_collision s x y n).mp hcol
      cases (hclear u v).symm.trans hpix
    rw [State.drawn_VF, hcol]
    rfl
  case second =>
    rw [State.drawn_VF, flagByte_eq_one_iff, drwResult_collision]
    refine exists₂_congr fun u v => ?_
    rw [State.drawn_pixel, hclear, Bool.false_xor, State.drawnBit_drawn n hx hy, Bool.and_eq_true, decide_eq_true_eq,
      and_assoc, and_self, and_assoc, State.drawnBit_iff]

/-- Settles O48: the second draw flips back what the first flipped. -/
theorem drwTwiceRestoresAnyBuffer : Obligations.DrwTwiceRestoresAnyBuffer := by
  intro s x y n hx hy
  refine ⟨_, _, exec_drw s x y n, exec_drw _ x y n, ?frame, fun r hr => ?others⟩
  case frame =>
    have hdisp : ((s.drawn x y n).drawn x y n).disp = s.disp := State.drawn_twice_disp n hx hy
    generalize hw : (s.drawn x y n).drawn x y n = w at hdisp ⊢
    have hframe : w = { s with V := w.V, disp := w.disp } := by rw [← hw]; rfl
    rw [hdisp] at hframe
    exact hframe
  case others => rw [State.drawn_getV_of_ne _ x y n hr, State.drawn_getV_of_ne s x y n hr]

end Sys2Proof.Machine
end

section
/-! Keypad and timers (45_timers_keys.md R210-R215) and what each instruction may write (10_state.md R20-R32): the key
compare, the transfers, and the writers of each piece of state; O49 to O53 are these put together. -/

namespace Sys2Proof.Machine

/-! ### The key of the cycle -/

theorem exec_skp (x : Reg) (s : State) : exec (.skp x) s = .next (s.skipIf (keyMatches s.keyIn (s.getV x))) := rfl

theorem exec_sknp (x : Reg) (s : State) : exec (.sknp x) s = .next (s.skipIf (!keyMatches s.keyIn (s.getV x))) := rfl

/-- The key is zero-extended and compared with all 8 bits (90_conflicts.md C5). -/
theorem keyMatches_iff (key : Option Key) (v : Byte) :
    keyMatches key v = true ↔ ∃ k, key = some k ∧ v.toNat = k.toNat := by
  cases key with
  | none => simp [keyMatches]
  | some k => simp only [keyMatches, decide_eq_true_eq, ← BitVec.toNat_inj (x := v), key_setWidth_toNat, Option.some.injEq,
      exists_eq_left']

theorem keyMatches_eq_false {key : Option Key} {v : Byte} (h : ∀ k, key = some k → v.toNat ≠ k.toNat) :
    keyMatches key v = false :=
  Bool.eq_false_iff.mpr fun hm => by
    obtain ⟨k, hk, hv⟩ := (keyMatches_iff key v).mp hm
    exact h k hk hv

theorem State.skipIf_true_pc (s : State) : (s.skipIf true).pc.toNat = (s.pc.toNat + 2) % 65536 :=
  s.skipIf_pc_of_holds trivial

theorem State.skipIf_false_pc (s : State) : (s.skipIf false).pc = s.pc := rfl

/-- Settles O49: SKP skips on a match, and SKNP on its negation. -/
theorem keySkipsCompareTheSample : Obligations.KeySkipsCompareTheSample := by
  intro s x
  refine ⟨⟨_, exec_skp x s, s.onlyPcDiffers_skipIf _, fun hyes => ?_, fun hno => ?_⟩,
    ⟨_, exec_sknp x s, s.onlyPcDiffers_skipIf _, fun hno => ?_, fun hyes => ?_⟩⟩
  · rw [(keyMatches_iff _ _).mpr hyes, State.skipIf_true_pc]
  · rw [keyMatches_eq_false hno, State.skipIf_false_pc]
  · rw [keyMatches_eq_false hno, Bool.not_false, State.skipIf_true_pc]
  · rw [(keyMatches_iff _ _).mpr hyes, Bool.not_true, State.skipIf_false_pc]

/-- Settles O50: the mode is all that LD Vx,K writes. -/
theorem keyWaitBegins : Obligations.KeyWaitBegins := fun s x =>
  ⟨s.setMode (.waitingForKey x), rfl, rfl, State.memRead_congr (s.setMode_mem _)⟩

/-! ### Timers -/

theorem exec_ldFromDT (x : Reg) (s : State) : exec (.ldFromDT x) s = .next (s.setV x s.DT) := rfl

/-- Settles O51: one write of V[X], of DT or of ST. -/
theorem timerTransfers : Obligations.TimerTransfers := fun s x =>
  ⟨⟨_, exec_ldFromDT x s, s.getV_setV_self x _, fun _ hr => s.getV_setV_of_ne _ hr, s.onlyRegistersDiffer_setV x _⟩,
    ⟨s.setDT (s.getV x), rfl, rfl, State.memRead_congr (s.setDT_mem _)⟩,
    ⟨s.setST (s.getV x), rfl, rfl, State.memRead_congr (s.setST_mem _)⟩⟩

/-! ### What an instruction may write -/

/-- Settles O52: by the register write of each instruction; what writes no register keeps them all. -/
theorem onlyListedInstructionsWriteRegisters : Obligations.OnlyListedInstructionsWriteRegisters := by
  intro i s t r h hr
  cases i with
  | ldByte | addByte | ldReg | orReg | andReg | xorReg | rnd | ldFromDT =>
    cases h
    exact s.getV_setV_of_ne _ hr
  | addReg | sub | shr | subn | shl =>
    cases h
    obtain ⟨hrx, hrF⟩ := not_or.mp hr
    exact s.getV_setFlagThenV_of_ne _ _ hrx hrF
  | loadRegs x =>
    cases h
    have above : ¬r ≤ x := hr
    rw [State.getV_loadRegsAt, if_neg above]
  | drw x y n =>
    cases h
    exact s.drawn_getV_of_ne x y n hr
  | ret => obtain ⟨-, rfl⟩ | ⟨_, rfl⟩ := exec_ret_cases h <;> rfl
  | call => obtain ⟨-, rfl⟩ | ⟨_, rfl⟩ := exec_call_cases h <;> rfl
  | ldB =>
    cases h
    exact State.getV_congr (congrArg State.V (s.memWriteList_frame _ _) :) r
  | storeRegs x =>
    cases h
    exact State.getV_congr (congrArg State.V (s.storeRegsAt_frame x) :) r
  | cls | jp | seByte | sneByte | seReg | sneReg | ldI | jpV0 | skp | sknp | ldKey | ldToDT | ldToST | addI | ldF =>
    cases h
    rfl

/-- Settles O53: by the field each instruction writes; the clauses of the fields it keeps hold at once. -/
theorem eachStateHasItsOwnWriters : Obligations.EachStateHasItsOwnWriters := by
  intro i s t h
  cases i with
  | ret => obtain ⟨hSP, rfl⟩ | ⟨_, rfl⟩ := exec_ret_cases h <;> simp [*, SameMemory, State.memRead, mayWritePc]
  | call => obtain ⟨hSP, rfl⟩ | ⟨_, rfl⟩ := exec_call_cases h <;> simp [*, SameMemory, State.memRead, mayWritePc]
  | storeRegs x =>
    cases h
    rw [State.storeRegsAt_frame]
    simp
  | ldB =>
    cases h
    rw [State.memWriteList_frame]
    simp
  | loadRegs x =>
    cases h
    rw [State.loadRegsAt_frame]
    simp [SameMemory, State.memRead]
  | cls | drw | jp | seByte | sneByte | seReg | sneReg | jpV0 | skp | sknp | ldI | addI | ldF | ldToDT | ldToST | ldKey
  | ldByte | addByte | ldReg | orReg | andReg | xorReg | addReg | sub | shr | subn | shl | rnd | ldFromDT =>
    cases h
    simp [SameMemory, State.memRead, mayWritePc]

end Sys2Proof.Machine
end
